-- ==== Sys2Proof/Word.lean ====
section
/-!
DEFINITION. The two word types of the 8080 core (spec/00_scope.md R5): every 8-bit quantity is a `Byte`, every
16-bit quantity (PC, SP, a register pair, a memory address, an immediate word) is a `Word`. Both wrap: `+` and `-` on
them are taken modulo 256 and modulo 65536.
-/

namespace Sys2Proof

/-- An 8-bit quantity (R5). -/
abbrev Byte := BitVec 8

/-- A 16-bit quantity (R5). -/
abbrev Word := BitVec 16

end Sys2Proof
end

