-- ==== Sys2Proof/Syntax.lean ====
section
/-!
DEFINITION. The instructions of spec/30_encoding.md R91, one constructor per mnemonic of spec/opcode_table.json, and
the operand selectors they carry. The twelve alias encodings (R87) decode to the constructor of the instruction they
stand for.
-/

namespace Sys2Proof

/-- The eight values of the 3-bit register selector (R22), in selector order; `m` is the memory byte at address HL. -/
inductive R8 where
  | b | c | d | e | h | l | m | a
  deriving DecidableEq, Repr

/-- The pair selector of LXI, INX, DCX, DAD: value 3 is SP (R23). -/
inductive Rp where
  | bc | de | hl | sp
  deriving DecidableEq, Repr

/-- The pair selector of PUSH and POP: value 3 is PSW (R23). -/
inductive StackPair where
  | bc | de | hl | psw
  deriving DecidableEq, Repr

/-- The pair LDAX and STAX address memory through: opcode bit 4 chooses BC or DE (R108, R109). -/
inductive IndirectPair where
  | bc | de
  deriving DecidableEq, Repr

/-- The eight condition codes (R31), in the order of their numbers. -/
inductive Cond where
  | nz | z | nc | c | po | pe | p | m
  deriving DecidableEq, Repr

/-- The 78 instructions (R91). -/
inductive Instr where
  -- data transfer (spec/40_data_transfer.md)
  | mov (dst src : R8)
  | mvi (dst : R8) (d8 : Byte)
  | lxi (rp : Rp) (d16 : Word)
  | lda (a16 : Word)
  | sta (a16 : Word)
  | lhld (a16 : Word)
  | shld (a16 : Word)
  | ldax (p : IndirectPair)
  | stax (p : IndirectPair)
  | xchg
  -- arithmetic (spec/41_arithmetic.md)
  | add (src : R8)
  | adc (src : R8)
  | sub (src : R8)
  | sbb (src : R8)
  | ana (src : R8)
  | xra (src : R8)
  | ora (src : R8)
  | cmp (src : R8)
  | adi (d8 : Byte)
  | aci (d8 : Byte)
  | sui (d8 : Byte)
  | sbi (d8 : Byte)
  | ani (d8 : Byte)
  | xri (d8 : Byte)
  | ori (d8 : Byte)
  | cpi (d8 : Byte)
  | inr (dst : R8)
  | dcr (dst : R8)
  | inx (rp : Rp)
  | dcx (rp : Rp)
  | dad (rp : Rp)
  | daa
  -- rotates, complement, carry (spec/42_logical.md)
  | rlc
  | rrc
  | ral
  | rar
  | cma
  | cmc
  | stc
  -- control flow (spec/43_control_flow.md)
  | jmp (a16 : Word)
  | jnz (a16 : Word)
  | jz (a16 : Word)
  | jnc (a16 : Word)
  | jc (a16 : Word)
  | jpo (a16 : Word)
  | jpe (a16 : Word)
  | jp (a16 : Word)
  | jm (a16 : Word)
  | call (a16 : Word)
  | cnz (a16 : Word)
  | cz (a16 : Word)
  | cnc (a16 : Word)
  | cc (a16 : Word)
  | cpo (a16 : Word)
  | cpe (a16 : Word)
  | cp (a16 : Word)
  | cm (a16 : Word)
  | ret
  | rnz
  | rz
  | rnc
  | rc
  | rpo
  | rpe
  | rp
  | rm
  | rst (n : BitVec 3)
  | pchl
  | hlt
  | ei
  | di
  | nop
  -- stack (spec/44_stack.md)
  | push (rp : StackPair)
  | pop (rp : StackPair)
  | xthl
  | sphl
  -- ports (spec/45_port_io.md)
  | inPort (port : Byte)
  | outPort (port : Byte)
  deriving DecidableEq, Repr

end Sys2Proof
end

