-- ==== Sys2Proof/WellFormed.lean ====
section
/-!
DEFINITION. Which terms of `Instr` are instructions of the hardware. The operand types leave one term over: MOV with
both selectors M, whose bit pattern is HLT ("the encoding with both selectors 6 is not a MOV", spec/40_data_transfer.md
R101; spec/30_encoding.md R84).
-/

namespace Sys2Proof

/-- An instruction term some byte sequence encodes (R84, R101). -/
def Instr.wellFormed : Instr → Bool
  | .mov .m .m => false
  | _ => true

end Sys2Proof
end

