-- ==== Sys2Proof/Decode.lean ====
section
/-!
DEFINITION. The instruction decoder (spec/30_encoding.md): the byte-order helpers, the selector tables, the opcode map
by quadrant (R84) with its aliases (R87) and its last arm (R88), the length of an instruction (R80, R86), the decoder
over a list of bytes, and the encoder written from the same tables.
-/

namespace Sys2Proof

/-! ### Bytes and words -/

/-- `hi:lo` (spec/00_scope.md section 5): the 16-bit value `hi * 256 + lo`. -/
def joinBytes (hi lo : Byte) : Word := hi ++ lo

/-- `hi(w)`, bits 15:8. -/
def hiByte (w : Word) : Byte := w.extractLsb' 8 8

/-- `lo(w)`, bits 7:0. -/
def loByte (w : Word) : Byte := w.extractLsb' 0 8

/-! ### Fields of the opcode byte (R81) -/

/-- `qq`, bits 7:6. -/
def opQuadrant (op : Byte) : BitVec 2 := op.extractLsb' 6 2

/-- `ddd`, `ccc`, `nnn`, `ooo`: bits 5:3. -/
def opMid (op : Byte) : BitVec 3 := op.extractLsb' 3 3

/-- `sss`, bits 2:0. -/
def opLow (op : Byte) : BitVec 3 := op.extractLsb' 0 3

/-- `rp`, bits 5:4: the upper two bits of the middle field. -/
def midPair (y : BitVec 3) : BitVec 2 := y.extractLsb' 1 2

/-- Bit 3 of the opcode: the low bit of the middle field. -/
def midBit3 (y : BitVec 3) : Bool := y.getLsbD 0

/-- An opcode byte from its three fields. -/
def opcodeOf (q : BitVec 2) (y z : BitVec 3) : Byte := q ++ y ++ z

/-- The middle field from a pair selector (bits 5:4) and bit 3. -/
def midOf (rp : BitVec 2) (bit3 : BitVec 1) : BitVec 3 := rp ++ bit3

/-! ### Selectors -/

/-- The register a 3-bit selector names (R22). -/
def R8.ofSel (i : BitVec 3) : R8 :=
  match i.toNat with
  | 0 => .b
  | 1 => .c
  | 2 => .d
  | 3 => .e
  | 4 => .h
  | 5 => .l
  | 6 => .m
  | _ => .a

/-- The 3-bit selector of a register (R22). -/
def R8.sel : R8 → BitVec 3
  | .b => 0
  | .c => 1
  | .d => 2
  | .e => 3
  | .h => 4
  | .l => 5
  | .m => 6
  | .a => 7

/-- The pair a 2-bit selector names in LXI, INX, DCX, DAD (R23). -/
def Rp.ofSel (i : BitVec 2) : Rp :=
  match i.toNat with
  | 0 => .bc
  | 1 => .de
  | 2 => .hl
  | _ => .sp

/-- The 2-bit selector of a pair (R23). -/
def Rp.sel : Rp → BitVec 2
  | .bc => 0
  | .de => 1
  | .hl => 2
  | .sp => 3

/-- The pair a 2-bit selector names in PUSH and POP (R23). -/
def StackPair.ofSel (i : BitVec 2) : StackPair :=
  match i.toNat with
  | 0 => .bc
  | 1 => .de
  | 2 => .hl
  | _ => .psw

/-- The 2-bit selector of a stack pair (R23). -/
def StackPair.sel : StackPair → BitVec 2
  | .bc => 0
  | .de => 1
  | .hl => 2
  | .psw => 3

/-- The two-bit selector of an address pair: 0 BC, 1 DE (R108, R109). -/
def IndirectPair.sel : IndirectPair → BitVec 2
  | .bc => 0
  | .de => 1

/-- The number of a condition code (R31). -/
def Cond.code : Cond → BitVec 3
  | .nz => 0
  | .z => 1
  | .nc => 2
  | .c => 3
  | .po => 4
  | .pe => 5
  | .p => 6
  | .m => 7

/-! ### The opcode map by quadrant (R84) -/

/-- The decoder's last arm, UNDEF (R88): executes as R218 says, "its effect is identical to rule R217", so it is NOP.
No opcode byte reaches it; log entry 8. -/
def undefInstr : Instr := .nop

/-- Quadrant 0, decoded on bits 2:0 and then bits 5:3; bits 2:0 = 000 is NOP and its seven aliases (R84, R87). -/
def decodeQuadrant0 (y z : BitVec 3) (d8 : Byte) (w : Word) : Instr :=
  match z.toNat with
  | 0 => .nop
  | 1 => if midBit3 y then .dad (Rp.ofSel (midPair y)) else .lxi (Rp.ofSel (midPair y)) w
  | 2 =>
    match y.toNat with
    | 0 => .stax .bc
    | 1 => .ldax .bc
    | 2 => .stax .de
    | 3 => .ldax .de
    | 4 => .shld w
    | 5 => .lhld w
    | 6 => .sta w
    | 7 => .lda w
    | _ => undefInstr
  | 3 => if midBit3 y then .dcx (Rp.ofSel (midPair y)) else .inx (Rp.ofSel (midPair y))
  | 4 => .inr (R8.ofSel y)
  | 5 => .dcr (R8.ofSel y)
  | 6 => .mvi (R8.ofSel y) d8
  | 7 =>
    match y.toNat with
    | 0 => .rlc
    | 1 => .rrc
    | 2 => .ral
    | 3 => .rar
    | 4 => .daa
    | 5 => .cma
    | 6 => .stc
    | 7 => .cmc
    | _ => undefInstr
  | _ => undefInstr

/-- Quadrant 1: MOV, except 0x76, both selectors 6, which is HLT (R84). -/
def decodeQuadrant1 (y z : BitVec 3) : Instr :=
  match R8.ofSel y, R8.ofSel z with
  | .m, .m => .hlt
  | dst, src => .mov dst src

/-- Quadrant 2: the ALU operation `ooo` on A and a register operand (R84). -/
def decodeQuadrant2 (y : BitVec 3) (s : R8) : Instr :=
  match y.toNat with
  | 0 => .add s
  | 1 => .adc s
  | 2 => .sub s
  | 3 => .sbb s
  | 4 => .ana s
  | 5 => .xra s
  | 6 => .ora s
  | 7 => .cmp s
  | _ => undefInstr

/-- The ALU operation `ooo` on A and an immediate byte, `11ooo110` (R84). -/
def decodeAluImmediate (y : BitVec 3) (d8 : Byte) : Instr :=
  match y.toNat with
  | 0 => .adi d8
  | 1 => .aci d8
  | 2 => .sui d8
  | 3 => .sbi d8
  | 4 => .ani d8
  | 5 => .xri d8
  | 6 => .ori d8
  | 7 => .cpi d8
  | _ => undefInstr

/-- The conditional returns `11ccc000` (R84, R203 to R210). -/
def decodeReturnIf (y : BitVec 3) : Instr :=
  match y.toNat with
  | 0 => .rnz
  | 1 => .rz
  | 2 => .rnc
  | 3 => .rc
  | 4 => .rpo
  | 5 => .rpe
  | 6 => .rp
  | 7 => .rm
  | _ => undefInstr

/-- The conditional jumps `11ccc010` (R84, R183 to R190). -/
def decodeJumpIf (y : BitVec 3) (w : Word) : Instr :=
  match y.toNat with
  | 0 => .jnz w
  | 1 => .jz w
  | 2 => .jnc w
  | 3 => .jc w
  | 4 => .jpo w
  | 5 => .jpe w
  | 6 => .jp w
  | 7 => .jm w
  | _ => undefInstr

/-- The conditional calls `11ccc100` (R84, R193 to R200). -/
def decodeCallIf (y : BitVec 3) (w : Word) : Instr :=
  match y.toNat with
  | 0 => .cnz w
  | 1 => .cz w
  | 2 => .cnc w
  | 3 => .cc w
  | 4 => .cpo w
  | 5 => .cpe w
  | 6 => .cp w
  | 7 => .cm w
  | _ => undefInstr

/-- Quadrant 3, decoded on bits 2:0 (R84); 0xCB is an alias of JMP, 0xD9 of RET, 0xDD, 0xED, 0xFD of CALL (R87). -/
def decodeQuadrant3 (y z : BitVec 3) (d8 : Byte) (w : Word) : Instr :=
  match z.toNat with
  | 0 => decodeReturnIf y
  | 1 =>
    match y.toNat with
    | 1 => .ret
    | 3 => .ret
    | 5 => .pchl
    | 7 => .sphl
    | _ => .pop (StackPair.ofSel (midPair y))
  | 2 => decodeJumpIf y w
  | 3 =>
    match y.toNat with
    | 0 => .jmp w
    | 1 => .jmp w
    | 2 => .outPort d8
    | 3 => .inPort d8
    | 4 => .xthl
    | 5 => .xchg
    | 6 => .di
    | 7 => .ei
    | _ => undefInstr
  | 4 => decodeCallIf y w
  | 5 => if midBit3 y then .call w else .push (StackPair.ofSel (midPair y))
  | 6 => decodeAluImmediate y d8
  | 7 => .rst y
  | _ => undefInstr

/-- The instruction an opcode byte selects, given the one or two bytes after it, of which it uses what its format
has (R82, R83): `b2` is the second byte, `b3` the third. -/
def decodeOp (op b2 b3 : Byte) : Instr :=
  match (opQuadrant op).toNat with
  | 0 => decodeQuadrant0 (opMid op) (opLow op) b2 (joinBytes b3 b2)
  | 1 => decodeQuadrant1 (opMid op) (opLow op)
  | 2 => decodeQuadrant2 (opMid op) (R8.ofSel (opLow op))
  | 3 => decodeQuadrant3 (opMid op) (opLow op) b2 (joinBytes b3 b2)
  | _ => undefInstr

/-! ### Lengths (R80) -/

/-- How many bytes an instruction is long: its format of R80. -/
def Instr.length : Instr → Nat
  | .mvi _ _ | .adi _ | .aci _ | .sui _ | .sbi _ | .ani _ | .xri _ | .ori _ | .cpi _ => 2
  | .inPort _ | .outPort _ => 2
  | .lxi _ _ | .lda _ | .sta _ | .lhld _ | .shld _ => 3
  | .jmp _ | .jnz _ | .jz _ | .jnc _ | .jc _ | .jpo _ | .jpe _ | .jp _ | .jm _ => 3
  | .call _ | .cnz _ | .cz _ | .cnc _ | .cc _ | .cpo _ | .cpe _ | .cp _ | .cm _ => 3
  | .mov _ _ | .ldax _ | .stax _ | .xchg => 1
  | .add _ | .adc _ | .sub _ | .sbb _ | .ana _ | .xra _ | .ora _ | .cmp _ => 1
  | .inr _ | .dcr _ | .inx _ | .dcx _ | .dad _ | .daa => 1
  | .rlc | .rrc | .ral | .rar | .cma | .cmc | .stc => 1
  | .ret | .rnz | .rz | .rnc | .rc | .rpo | .rpe | .rp | .rm | .rst _ | .pchl => 1
  | .hlt | .ei | .di | .nop => 1
  | .push _ | .pop _ | .xthl | .sphl => 1

/-- The length of the instruction an opcode byte selects: "a function of the opcode byte alone" (R80). -/
def opLength (op : Byte) : Nat := (decodeOp op 0 0).length

/-! ### Decoding a list of bytes -/

/-- Why a list of bytes holds no whole instruction. The decoder itself never refuses (R82): only a list that ends too
soon does. -/
inductive DecodeError where
  /-- There is no opcode byte. -/
  | noOpcode
  /-- The bytes end before the operand bytes of this opcode. -/
  | missingOperand (op : Byte)
  deriving DecidableEq, Repr

/-- What decoding a list of bytes gives: its first instruction and the bytes after it, or why there is none. -/
inductive DecodeResult where
  | ok (i : Instr) (rest : List Byte)
  | error (e : DecodeError)
  deriving DecidableEq, Repr

/-- The first instruction of a list of bytes, rising addresses left to right (R80), and the bytes after it. -/
def decode : List Byte → DecodeResult
  | [] => .error .noOpcode
  | op :: rest =>
    match opLength op, rest with
    | 1, r => .ok (decodeOp op 0 0) r
    | 2, b2 :: r => .ok (decodeOp op b2 0) r
    | 3, b2 :: b3 :: r => .ok (decodeOp op b2 b3) r
    | _, _ => .error (.missingOperand op)

/-! ### The encoder (R84, canonical encodings) -/

/-- Format `OP`. -/
def encodeOp1 (q : BitVec 2) (y z : BitVec 3) : List Byte := [opcodeOf q y z]

/-- Formats `OP_D8` and `OP_PORT`. -/
def encodeOp2 (q : BitVec 2) (y z : BitVec 3) (d8 : Byte) : List Byte := [opcodeOf q y z, d8]

/-- Formats `OP_D16` and `OP_A16`: the low byte first. -/
def encodeOp3 (q : BitVec 2) (y z : BitVec 3) (w : Word) : List Byte := [opcodeOf q y z, loByte w, hiByte w]

/-- The bytes of a well-formed instruction, in its documented (not alias) encoding. -/
def encode : Instr → List Byte
  | .mov dst src => encodeOp1 1 dst.sel src.sel
  | .mvi dst d8 => encodeOp2 0 dst.sel 6 d8
  | .lxi p w => encodeOp3 0 (midOf p.sel 0) 1 w
  | .lda w => encodeOp3 0 7 2 w
  | .sta w => encodeOp3 0 6 2 w
  | .lhld w => encodeOp3 0 5 2 w
  | .shld w => encodeOp3 0 4 2 w
  | .ldax p => encodeOp1 0 (midOf p.sel 1) 2
  | .stax p => encodeOp1 0 (midOf p.sel 0) 2
  | .xchg => encodeOp1 3 5 3
  | .add s => encodeOp1 2 0 s.sel
  | .adc s => encodeOp1 2 1 s.sel
  | .sub s => encodeOp1 2 2 s.sel
  | .sbb s => encodeOp1 2 3 s.sel
  | .ana s => encodeOp1 2 4 s.sel
  | .xra s => encodeOp1 2 5 s.sel
  | .ora s => encodeOp1 2 6 s.sel
  | .cmp s => encodeOp1 2 7 s.sel
  | .adi d8 => encodeOp2 3 0 6 d8
  | .aci d8 => encodeOp2 3 1 6 d8
  | .sui d8 => encodeOp2 3 2 6 d8
  | .sbi d8 => encodeOp2 3 3 6 d8
  | .ani d8 => encodeOp2 3 4 6 d8
  | .xri d8 => encodeOp2 3 5 6 d8
  | .ori d8 => encodeOp2 3 6 6 d8
  | .cpi d8 => encodeOp2 3 7 6 d8
  | .inr dst => encodeOp1 0 dst.sel 4
  | .dcr dst => encodeOp1 0 dst.sel 5
  | .inx p => encodeOp1 0 (midOf p.sel 0) 3
  | .dcx p => encodeOp1 0 (midOf p.sel 1) 3
  | .dad p => encodeOp1 0 (midOf p.sel 1) 1
  | .daa => encodeOp1 0 4 7
  | .rlc => encodeOp1 0 0 7
  | .rrc => encodeOp1 0 1 7
  | .ral => encodeOp1 0 2 7
  | .rar => encodeOp1 0 3 7
  | .cma => encodeOp1 0 5 7
  | .cmc => encodeOp1 0 7 7
  | .stc => encodeOp1 0 6 7
  | .jmp w => encodeOp3 3 0 3 w
  | .jnz w => encodeOp3 3 Cond.nz.code 2 w
  | .jz w => encodeOp3 3 Cond.z.code 2 w
  | .jnc w => encodeOp3 3 Cond.nc.code 2 w
  | .jc w => encodeOp3 3 Cond.c.code 2 w
  | .jpo w => encodeOp3 3 Cond.po.code 2 w
  | .jpe w => encodeOp3 3 Cond.pe.code 2 w
  | .jp w => encodeOp3 3 Cond.p.code 2 w
  | .jm w => encodeOp3 3 Cond.m.code 2 w
  | .call w => encodeOp3 3 1 5 w
  | .cnz w => encodeOp3 3 Cond.nz.code 4 w
  | .cz w => encodeOp3 3 Cond.z.code 4 w
  | .cnc w => encodeOp3 3 Cond.nc.code 4 w
  | .cc w => encodeOp3 3 Cond.c.code 4 w
  | .cpo w => encodeOp3 3 Cond.po.code 4 w
  | .cpe w => encodeOp3 3 Cond.pe.code 4 w
  | .cp w => encodeOp3 3 Cond.p.code 4 w
  | .cm w => encodeOp3 3 Cond.m.code 4 w
  | .ret => encodeOp1 3 1 1
  | .rnz => encodeOp1 3 Cond.nz.code 0
  | .rz => encodeOp1 3 Cond.z.code 0
  | .rnc => encodeOp1 3 Cond.nc.code 0
  | .rc => encodeOp1 3 Cond.c.code 0
  | .rpo => encodeOp1 3 Cond.po.code 0
  | .rpe => encodeOp1 3 Cond.pe.code 0
  | .rp => encodeOp1 3 Cond.p.code 0
  | .rm => encodeOp1 3 Cond.m.code 0
  | .rst n => encodeOp1 3 n 7
  | .pchl => encodeOp1 3 5 1
  | .hlt => encodeOp1 1 6 6
  | .ei => encodeOp1 3 7 3
  | .di => encodeOp1 3 6 3
  | .nop => encodeOp1 0 0 0
  | .push p => encodeOp1 3 (midOf p.sel 0) 5
  | .pop p => encodeOp1 3 (midOf p.sel 0) 1
  | .xthl => encodeOp1 3 4 3
  | .sphl => encodeOp1 3 7 1
  | .inPort p => encodeOp2 3 3 3 p
  | .outPort p => encodeOp2 3 2 3 p

/-! ### The table's words -/

/-- The three bytes, rising addresses, of an instruction whose bits are `w`, bit 0 the least significant bit of its
first byte, of which the lowest `nbits` count and every higher one is 0. -/
def tableBytes (nbits w : Nat) : List Byte :=
  let v := w % 2 ^ nbits
  [BitVec.ofNat 8 v, BitVec.ofNat 8 (v / 256), BitVec.ofNat 8 (v / 65536)]

/-- What the decoder reads from an instruction whose bits are `w`, numbered as spec/opcode_table.json numbers them. -/
def decodeTableWord (nbits w : Nat) : Option Instr :=
  match decode (tableBytes nbits w) with
  | .ok i _ => some i
  | .error _ => none

end Sys2Proof
end

