-- ==== Sys2Proof/Config.lean ====
section
/-!
DEFINITION. What a configuration of the core fixes and the spec leaves open (spec/00_scope.md section 4, "Left to the
model as named parameters"; spec/92_eei_decisions.md D21): the two presence straps of the port capabilities and the
oracle that a present read capability is. None has a body, so whatever is proved holds for every configuration and
every answer.
-/

namespace Sys2Proof

/-- One transaction on the port interface (spec/45_port_io.md R234). -/
inductive PortAccess where
  /-- `IO_READ(port) -> data`: what an executed IN presents when the read capability is present. -/
  | read (port data : Byte)
  /-- `IO_WRITE(port, data)`: what an executed OUT presents when the write capability is present. -/
  | write (port data : Byte)
  deriving DecidableEq, Repr

/-- `IO_READ_PRESENT`: whether the port-read capability is present (R230). Left open; log entry 4. -/
opaque Config.ioReadPresent : Bool

/-- `IO_WRITE_PRESENT`: whether the port-write capability is present (R231). Left open; log entry 4. -/
opaque Config.ioWritePresent : Bool

/-- `PortIn`: what a present read capability answers for a port, given the port accesses made so far, oldest first
(R230: "the answer may differ from one invocation to the next and may depend on earlier port reads and writes").
A free value; log entry 3. -/
opaque Config.portIn : List PortAccess → Byte → Byte

end Sys2Proof
end

