-- ==== Sys2Proof/Machine/State.lean ====
section
/-!
DEFINITION. The state of the core (spec/10_state.md: "the whole architectural state of the machine is the record"),
the outputs the interface has no other place for (the cycle count, the transactions of memory and ports), the reasons
a step can stop, and the machine as created.
-/

namespace Sys2Proof.Machine

/-- Memory (R36, R50): the bytes that differ from what an unlisted address reads as, as (address, byte) pairs with
strictly rising addresses. Machine/Ops.lean reads, writes and says the form. -/
abbrev Memory := List Host.Cell

/-- One transaction on the core's interfaces (R57, R64, R234). -/
inductive Transaction where
  /-- `MEM_READ(addr) -> data` (R64). -/
  | memRead (addr : Word) (data : Byte)
  /-- `MEM_WRITE(addr, data)` (R64). -/
  | memWrite (addr : Word) (data : Byte)
  /-- `IO_READ(port) -> data` or `IO_WRITE(port, data)` (R234). -/
  | port (access : PortAccess)
  deriving DecidableEq, Repr

/-- The machine's state. Every field but the last three is architectural state of spec/10_state.md. -/
structure State where
  /-- A, the accumulator (R20). -/
  a : Byte
  /-- B (R20). -/
  b : Byte
  /-- C (R20). -/
  c : Byte
  /-- D (R20). -/
  d : Byte
  /-- E (R20). -/
  e : Byte
  /-- H (R20). -/
  h : Byte
  /-- L (R20). -/
  l : Byte
  /-- F, the flags byte: S Z 0 AC 0 P 1 CY from bit 7 down (R26). -/
  f : Byte
  /-- PC: between steps, the address of the next opcode byte (R24). -/
  pc : Word
  /-- SP: the address of the low byte of the word most recently pushed (R25). -/
  sp : Word
  /-- The halt flip-flop (R33). -/
  halted : Bool
  /-- The interrupt-enable flip-flop (R34). -/
  inte : Bool
  /-- The 65536 bytes of memory (R36). -/
  mem : Memory
  /-- The `cycles` output: the count of the step just finished (R265, R266; D2). The model's own field; log entry 2. -/
  cycles : Nat
  /-- The port transactions made so far, oldest first (R234, R235). The model's own field; log entry 3. -/
  portLog : List PortAccess
  /-- The transactions the core has presented in the step just finished, in the order of R57 (R64, R234). The model's own
  field; log entry 6. -/
  bus : List Transaction
  deriving DecidableEq, Repr

/-- Why the machine stops with a fault: it never does ("No step faults", R4; R240), so there is no constructor. -/
inductive Fault where
  deriving DecidableEq, Repr

/-- Why an instruction has no outcome. -/
inductive Refusal where
  /-- Raised by an arm of `exec` whose instruction has no meaning yet. Safe: the machine stops where the hardware goes
  on. No arm of this model raises it. -/
  | notModelled (mnemonic : String)
  deriving DecidableEq, Repr

/-- The machine as created, nothing loaded: R37's creation column and R261, all memory 0x00. The register values are
the spec's own decisions D3 and D4, log entry 1; the last three fields are the model's, log entries 2, 3
and 6. -/
def State.reset : State where
  a := 0x00
  b := 0x00
  c := 0x00
  d := 0x00
  e := 0x00
  h := 0x00
  l := 0x00
  f := 0x02
  pc := 0x0000
  sp := 0x0000
  halted := false
  inte := false
  mem := []
  cycles := 0
  portLog := []
  bus := []

end Sys2Proof.Machine
end

