-- ==== Sys2Proof/Machine/Ops.lean ====
section
/-!
DEFINITION. The operations every meaning is written over: memory and the transactions of its interface
(spec/20_memory.md), the register-pair views (spec/10_state.md R21), fetch-and-advance (R53), push and pop (R54),
control transfer (spec/43_control_flow.md R180), the cycle report (spec/70_reset_and_hazards.md R266), the port
multiplexer (spec/45_port_io.md), the start of a step, the idle step (R214), and the host's moves of R260, R261 and R269
that act on a state. There is no exception to take and none to return from (spec/60_exceptions.md R240, R243, R244).
-/

namespace Sys2Proof.Machine

/-- What a meaning answers. -/
abbrev Result := Host.Outcome State Fault Refusal

/-! ### Memory as a sorted list of cells -/

/-- What an address that no cell lists reads as: memory is "zero-initialized at creation" (R36, R261). -/
def unlistedByte : Byte := 0x00

/-- The canonical form: addresses strictly rising, inside the address space, no cell equal to an unlisted byte. -/
abbrev Memory.wf (m : Memory) : Prop :=
  m.Pairwise (fun x y => x.1 < y.1) ∧ ∀ x ∈ m, x.1 < 65536 ∧ x.2 ≠ unlistedByte

/-- The byte at an address. -/
def Memory.read : Memory → Nat → Byte
  | [], _ => unlistedByte
  | cell :: m, a => if cell.1 = a then cell.2 else Memory.read m a

/-- No cell lists the address any more. -/
def Memory.erase : Memory → Nat → Memory
  | [], _ => []
  | cell :: m, a => if cell.1 = a then Memory.erase m a else cell :: Memory.erase m a

/-- A cell put at its place in the order. -/
def Memory.insert : Memory → Host.Cell → Memory
  | [], new => [new]
  | cell :: m, new => if new.1 < cell.1 then new :: cell :: m else cell :: Memory.insert m new

/-- A byte stored at an address; storing the byte an unlisted address reads as lists nothing. -/
def Memory.write (m : Memory) (a : Nat) (v : Byte) : Memory :=
  if v = unlistedByte then m.erase a else (m.erase a).insert (a, v)

/-! ### Byte access (R50) -/

/-- `MemRead(addr, 1)` (R50). -/
def memRead (s : State) (addr : Word) : Byte := s.mem.read addr.toNat

/-- `MemWrite(addr, 1, v)` (R50). -/
def memWrite (addr : Word) (v : Byte) (s : State) : State := { s with mem := s.mem.write addr.toNat v }

/-! ### The memory interface (R57, R64): an access is presented after those the step has already presented -/

/-- `MemRead(addr, 1)`, presented: the byte, and the state after the transaction `MEM_READ(addr)` (R50, R64). -/
def busRead (addr : Word) (s : State) : Byte × State :=
  (memRead s addr, { s with bus := s.bus ++ [.memRead addr (memRead s addr)] })

/-- `MemWrite(addr, 1, v)`, presented as the transaction `MEM_WRITE(addr, v)` (R50, R64). -/
def busWrite (addr : Word) (v : Byte) (s : State) : State :=
  { s with mem := (memWrite addr v s).mem, bus := s.bus ++ [.memWrite addr v] }

/-- `MemRead(addr, 2)`, presented: little-endian, `addr + 1` modulo 65536 (R51), two one-byte reads, the lower address
first (R55, R57). -/
def busReadWord (addr : Word) (s : State) : Word × State :=
  let lo := busRead addr s
  let hi := busRead (addr + 1) lo.2
  (joinBytes hi.1 lo.1, hi.2)

/-- `MemWrite(addr, 2, w)`, presented: the low byte at `addr`, then the high byte at `addr + 1` modulo 65536 (R51, R55,
R57). -/
def busWriteWord (addr w : Word) (s : State) : State :=
  busWrite (addr + 1) (hiByte w) (busWrite addr (loByte w) s)

/-! ### Register-pair views (R21): the first-named register is the high byte -/

/-- BC. -/
def bc (s : State) : Word := joinBytes s.b s.c

/-- DE. -/
def de (s : State) : Word := joinBytes s.d s.e

/-- HL. -/
def hl (s : State) : Word := joinBytes s.h s.l

/-- `BC <- w`. -/
def setBc (w : Word) (s : State) : State := { s with b := hiByte w, c := loByte w }

/-- `DE <- w`. -/
def setDe (w : Word) (s : State) : State := { s with d := hiByte w, e := loByte w }

/-- `HL <- w`. -/
def setHl (w : Word) (s : State) : State := { s with h := hiByte w, l := loByte w }

/-- `PSW = A:F` (R30). -/
def psw (s : State) : Word := joinBytes s.a s.f

/-- The fixed-bit mask of a wholesale load of F: `(v & 0xD5) | 0x02` (R27). -/
def loadFlags (v : Byte) : Byte := (v &&& 0xD5) ||| 0x02

/-- `PSW <- w`: the fixed bits of F are applied again (R27, R30). -/
def setPsw (w : Word) (s : State) : State := { s with a := hiByte w, f := loadFlags (loByte w) }

/-! ### Fetch-and-advance (R53) -/

/-- `Fetch8()`: the byte at PC, and the state with PC advanced by 1. -/
def fetch8 (s : State) : Byte × State :=
  let v := busRead s.pc s
  (v.1, { v.2 with pc := s.pc + 1 })

/-- `Fetch16()`: the word at PC, and the state with PC advanced by 2. -/
def fetch16 (s : State) : Word × State :=
  let v := busReadWord s.pc s
  (v.1, { v.2 with pc := s.pc + 2 })

/-- The instruction at PC and the state after its bytes are fetched: the opcode byte, then one `Fetch8()` or one
`Fetch16()` where the opcode calls for operand bytes (R53); PC is then the address after the instruction (R24). -/
def fetchInstr (s : State) : Instr × State :=
  let opcode := fetch8 s
  match opLength opcode.1 with
  | 2 =>
    let operand := fetch8 opcode.2
    (decodeOp opcode.1 operand.1 0, operand.2)
  | 3 =>
    let operand := fetch16 opcode.2
    (decodeOp opcode.1 (loByte operand.1) (hiByte operand.1), operand.2)
  | _ => (decodeOp opcode.1 0 0, opcode.2)

/-! ### The cycle report, control transfer and the stack -/

/-- `cycles <- n`: the count the step reports (R265, R266). -/
def report (n : Nat) (s : State) : State := { s with cycles := n }

/-- `pc <- target` (R24, R180). -/
def jumpTo (target : Word) (s : State) : State := { s with pc := target }

/-- `Push16(w)`: `SP <- SP - 2`, then the word at the new SP (R54). -/
def push16 (w : Word) (s : State) : State := busWriteWord (s.sp - 2) w { s with sp := s.sp - 2 }

/-- `Pop16()`: the word at SP, and the state after `SP <- SP + 2` (R54). -/
def pop16 (s : State) : Word × State :=
  let v := busReadWord s.sp s
  (v.1, { v.2 with sp := s.sp + 2 })

/-- A call: the return address, the PC after the instruction's bytes, is pushed, then PC is the target (R180). -/
def callTo (target : Word) (s : State) : State := jumpTo target (push16 s.pc s)

/-- A return: PC is the popped word (R180). -/
def returnFrom (s : State) : State :=
  let popped := pop16 s
  jumpTo popped.1 popped.2

/-! ### The port multiplexer (R230, R231) -/

/-- One port transaction: presented in its place (R57, R234), and kept in the history the oracle answers from (R230). -/
def presentPort (access : PortAccess) (s : State) : State :=
  { s with portLog := s.portLog ++ [access], bus := s.bus ++ [.port access] }

/-- `PortRead(p)` under one configuration: a present read capability answers `answer` and the transaction is presented;
an absent one gives 0xFF and nothing outside the core is touched (R230). -/
def portReadWith (isPresent : Bool) (answer p : Byte) (s : State) : Byte × State :=
  if isPresent then (answer, presentPort (.read p answer) s) else (0xFF, s)

/-- `PortRead(p)`: presence is the configuration's and the answer the oracle's, drawn for this access (R230). -/
def portRead (p : Byte) (s : State) : Byte × State :=
  portReadWith Config.ioReadPresent (Config.portIn s.portLog p) p s

/-- `PortWrite(p, v)` under one configuration: handed over, that is presented, when the write capability is present, and
dropped when it is absent (R231). -/
def portWriteWith (isPresent : Bool) (p v : Byte) (s : State) : State :=
  if isPresent then presentPort (.write p v) s else s

/-- `PortWrite(p, v)` (R231). -/
def portWrite (p v : Byte) (s : State) : State := portWriteWith Config.ioWritePresent p v s

/-! ### The start of a step, the idle step and the host's moves -/

/-- A step begins: it has presented no transaction yet, and those of the step before are complete (R61). -/
def beginStep (s : State) : State := { s with bus := [] }

/-- The step taken with `halted = 1`: nothing is fetched, nothing changes, 4 cycles are reported (R214). -/
def idleStep (s : State) : State := report 4 s

/-- Reset, the event the host applies between steps (R260): memory is kept. What is not the machine's state (the last
count reported, the transactions made) stays as it was. -/
def hostReset (s : State) : State :=
  { State.reset with mem := s.mem, cycles := s.cycles, portLog := s.portLog, bus := s.bus }

/-- The host's loader, between steps (R261, R269): a byte sequence stored at rising addresses modulo 65536. These are
the host's accesses, not transactions of the core. -/
def hostLoad : Word → List Byte → State → State
  | _, [], s => s
  | addr, v :: vs, s => hostLoad (addr + 1) vs (memWrite addr v s)

end Sys2Proof.Machine
end

