-- ==== Sys2Proof/Machine/Flags.lean ====
section
/-!
DEFINITION. The flags byte F and every computation that writes it: the five live bits and their single-bit writes
(spec/10_state.md R26, R27), parity and `szp` (R28, R29), the condition codes (R31), the ALU functions `add8` (R120),
`sub8` (R121), increment and decrement (R132, R133), the pair adder (R136), decimal adjust (R137), `logic8` (R150) and
the rotates (R157 to R160). An ALU function takes the old F and gives the result with the new F.
-/

namespace Sys2Proof.Machine

/-- The five live flags. -/
inductive Flag where
  | s | z | ac | p | cy
  deriving DecidableEq, Repr

/-- The bit of F a flag stands at (R26). -/
def Flag.pos : Flag → Nat
  | .s => 7
  | .z => 6
  | .ac => 4
  | .p => 2
  | .cy => 0

/-- The value of one flag in a flags byte. -/
def flag (x : Flag) (f : Byte) : Bool := f.getLsbD x.pos

/-- The byte with one flag written: "mask operations that never disturb the fixed bits or the other flags" (R27). -/
def setFlag (x : Flag) (v : Bool) (f : Byte) : Byte :=
  if v then f ||| (1#8 <<< x.pos) else f &&& ~~~(1#8 <<< x.pos)

/-- `parity(v)`: whether the number of 1 bits among `v[7:0]` is even (R29). -/
def parity (v : Byte) : Bool := (List.range 8).countP (fun i => v.getLsbD i) % 2 == 0

/-- `szp(v)`: S, Z and P from an 8-bit value, no other flag (R28). -/
def szp (v f : Byte) : Byte :=
  setFlag .s (v.getLsbD 7) (setFlag .z (v == 0) (setFlag .p (parity v) f))

/-- `cond(c)`: the truth of a condition code under a flags byte (R31). -/
def condHolds (k : Cond) (f : Byte) : Bool :=
  match k with
  | .nz => !flag .z f
  | .z => flag .z f
  | .nc => !flag .cy f
  | .c => flag .cy f
  | .po => !flag .p f
  | .pe => flag .p f
  | .p => !flag .s f
  | .m => flag .s f

/-- The low nibble of a byte, `v & 0x0F`, as an integer. -/
def lowNibble (v : Byte) : Nat := (v &&& 0x0F).toNat

/-- `add8(a, b, cin)` (R120): result and new F. -/
def add8 (a b : Byte) (cin : Bool) (f : Byte) : Byte × Byte :=
  let wide := a.toNat + b.toNat + cin.toNat
  let res := BitVec.ofNat 8 wide
  let cy := decide (wide > 0xFF)
  let ac := decide (lowNibble a + lowNibble b + cin.toNat > 0x0F)
  (res, szp res (setFlag .ac ac (setFlag .cy cy f)))

/-- `sub8(a, b, bin)` (R121): result and new F; CY and AC are the borrows themselves (C4, D28). -/
def sub8 (a b : Byte) (bin : Bool) (f : Byte) : Byte × Byte :=
  let wide : Int := (a.toNat : Int) - b.toNat - bin.toNat
  let res := BitVec.ofInt 8 wide
  let cy := decide (wide < 0)
  let ac := decide ((lowNibble a : Int) - lowNibble b - bin.toNat < 0)
  (res, szp res (setFlag .ac ac (setFlag .cy cy f)))

/-- INR's increment (R132): S, Z, P, AC; CY is not written. -/
def inc8 (v f : Byte) : Byte × Byte :=
  let res := v + 1
  (res, szp res (setFlag .ac (decide (lowNibble v + 1 > 0x0F)) f))

/-- DCR's decrement (R133): S, Z, P, AC; CY is not written. -/
def dec8 (v f : Byte) : Byte × Byte :=
  let res := v - 1
  (res, szp res (setFlag .ac (decide ((lowNibble v : Int) - 1 < 0)) f))

/-- DAD's pair adder (R136): CY is the carry out of bit 15; no other flag is written. -/
def add16 (x y : Word) (f : Byte) : Word × Byte :=
  let wide := x.toNat + y.toNat
  (BitVec.ofNat 16 wide, setFlag .cy (decide (wide > 0xFFFF)) f)

/-- DAA's two-step correction of A (R137), `t` an integer wider than 8 bits. -/
def decimalAdjust (a f : Byte) : Byte × Byte :=
  let lowFix := decide (lowNibble a > 9) || flag .ac f
  let ac := lowFix && decide (lowNibble a + 6 > 0x0F)
  let t1 := if lowFix then a.toNat + 0x06 else a.toNat
  let highFix := decide (t1 / 16 > 9) || flag .cy f
  let t2 := if highFix then t1 + 0x60 else t1
  let f1 := if highFix then setFlag .cy true f else f
  let res := BitVec.ofNat 8 t2
  (res, szp res (setFlag .ac ac f1))

/-- The three operations of `logic8` (R150). -/
inductive LogicOp where
  | and | xor | or
  deriving DecidableEq, Repr

/-- `logic8(op, a, b)` (R150): CY is cleared; AC is `a[3] OR b[3]` for AND, 0 for XOR and OR. -/
def logic8 (op : LogicOp) (a b f : Byte) : Byte × Byte :=
  let res := match op with
    | .and => a &&& b
    | .xor => a ^^^ b
    | .or => a ||| b
  let ac := match op with
    | .and => a.getLsbD 3 || b.getLsbD 3
    | .xor => false
    | .or => false
  (res, szp res (setFlag .ac ac (setFlag .cy false f)))

/-- A byte holding one bit, at place `i`. -/
def bitAt (i : Nat) (v : Bool) : Byte := (BitVec.ofBool v).setWidth 8 <<< i

/-- RLC (R157): bit 7 goes to bit 0 and to CY. -/
def rotateLeft (a f : Byte) : Byte × Byte :=
  let out := a.getLsbD 7
  (a <<< 1 ||| bitAt 0 out, setFlag .cy out f)

/-- RRC (R158): bit 0 goes to bit 7 and to CY. -/
def rotateRight (a f : Byte) : Byte × Byte :=
  let out := a.getLsbD 0
  (a >>> 1 ||| bitAt 7 out, setFlag .cy out f)

/-- RAL (R159): the old CY goes to bit 0, bit 7 to CY. -/
def rotateLeftThroughCarry (a f : Byte) : Byte × Byte :=
  (a <<< 1 ||| bitAt 0 (flag .cy f), setFlag .cy (a.getLsbD 7) f)

/-- RAR (R160): the old CY goes to bit 7, bit 0 to CY. -/
def rotateRightThroughCarry (a f : Byte) : Byte × Byte :=
  (a >>> 1 ||| bitAt 7 (flag .cy f), setFlag .cy (a.getLsbD 0) f)

end Sys2Proof.Machine
end

