-- ==== Sys2Proof/Machine/Operands.lean ====
section
/-!
DEFINITION. The operand forms (spec/10_state.md R22, R23; spec/40_data_transfer.md R100) and the accumulator forms of
the ALU functions.
-/

namespace Sys2Proof.Machine

/-- `r8[i]`: a register, or the byte at address HL (R22). -/
def readR8 (r : R8) (s : State) : Byte :=
  match r with
  | .b => s.b
  | .c => s.c
  | .d => s.d
  | .e => s.e
  | .h => s.h
  | .l => s.l
  | .m => memRead s (hl s)
  | .a => s.a

/-- `r8[i] <- v`: a register, or the byte at address HL (R22). -/
def writeR8 (r : R8) (v : Byte) (s : State) : State :=
  match r with
  | .b => { s with b := v }
  | .c => { s with c := v }
  | .d => { s with d := v }
  | .e => { s with e := v }
  | .h => { s with h := v }
  | .l => { s with l := v }
  | .m => memWrite (hl s) v s
  | .a => { s with a := v }

/-- `r8[i]` as the core reads it: for M one transaction of the memory interface (R55, R64), for a register none. -/
def readOperand (r : R8) (s : State) : Byte × State :=
  match r with
  | .m => busRead (hl s) s
  | .b | .c | .d | .e | .h | .l | .a => (readR8 r s, s)

/-- `r8[i] <- v` as the core writes it: for M one transaction of the memory interface (R55, R64), for a register
none. -/
def writeOperand (r : R8) (v : Byte) (s : State) : State :=
  match r with
  | .m => busWrite (hl s) v s
  | .b | .c | .d | .e | .h | .l | .a => writeR8 r v s

/-- `rp[i]` (R23). -/
def readRp (p : Rp) (s : State) : Word :=
  match p with
  | .bc => bc s
  | .de => de s
  | .hl => hl s
  | .sp => s.sp

/-- `rp[i] <- w` (R23). -/
def writeRp (p : Rp) (w : Word) (s : State) : State :=
  match p with
  | .bc => setBc w s
  | .de => setDe w s
  | .hl => setHl w s
  | .sp => { s with sp := w }

/-- `rpq[i]` (R23): PSW in the place of SP. -/
def readStackPair (p : StackPair) (s : State) : Word :=
  match p with
  | .bc => bc s
  | .de => de s
  | .hl => hl s
  | .psw => psw s

/-- `rpq[i] <- w` (R23): PSW in the place of SP. -/
def writeStackPair (p : StackPair) (w : Word) (s : State) : State :=
  match p with
  | .bc => setBc w s
  | .de => setDe w s
  | .hl => setHl w s
  | .psw => setPsw w s

/-- The effective address of LDAX and STAX (R100 b, R108, R109). -/
def indirectAddr (p : IndirectPair) (s : State) : Word :=
  match p with
  | .bc => bc s
  | .de => de s

/-- The count of an instruction with a register operand: one for a register, one for M (R265). -/
def countFor (reg mem : Nat) : R8 → Nat
  | .m => mem
  | .b | .c | .d | .e | .h | .l | .a => reg

/-- A and F replaced by an ALU function's result and flags. -/
def setAccFlags (r : Byte × Byte) (s : State) : State := { s with a := r.1, f := r.2 }

/-- A replaced by a byte read, in the state after the read. -/
def setA (r : Byte × State) : State := { r.2 with a := r.1 }

/-- Whether a condition code holds in a state: its flags as they are when the instruction starts (R31, R180 g). -/
def cond (k : Cond) (s : State) : Bool := condHolds k s.f

/-- A conditional jump (R182). -/
def jumpIf (k : Cond) (target : Word) (s : State) : State :=
  report 10 (if cond k s then jumpTo target s else s)

/-- A conditional call, 17 cycles taken and 11 not (R192). -/
def callIf (k : Cond) (target : Word) (s : State) : State :=
  if cond k s then report 17 (callTo target s) else report 11 s

/-- A conditional return, 11 cycles taken and 5 not (R202). -/
def returnIf (k : Cond) (s : State) : State :=
  if cond k s then report 11 (returnFrom s) else report 5 s

end Sys2Proof.Machine
end

