-- ==== Sys2Proof/Machine/Arithmetic.lean ====
section
/-!
DEFINITION. The arithmetic instructions (spec/41_arithmetic.md) over the ALU functions of Machine/Flags.lean.
PC is already past the instruction's bytes when a meaning runs (R24, R53; Machine/Step.lean).
-/

namespace Sys2Proof.Machine

/-- ADD s (R122). -/
def execAdd (src : R8) (s : State) : Result :=
  let v := readOperand src s
  .next (report (countFor 4 7 src) (setAccFlags (add8 s.a v.1 false s.f) v.2))

/-- ADI d8 (R123). -/
def execAdi (d8 : Byte) (s : State) : Result :=
  .next (report 7 (setAccFlags (add8 s.a d8 false s.f) s))

/-- ADC s: the carry is read before it is written (R124). -/
def execAdc (src : R8) (s : State) : Result :=
  let v := readOperand src s
  .next (report (countFor 4 7 src) (setAccFlags (add8 s.a v.1 (flag .cy s.f) s.f) v.2))

/-- ACI d8 (R125). -/
def execAci (d8 : Byte) (s : State) : Result :=
  .next (report 7 (setAccFlags (add8 s.a d8 (flag .cy s.f) s.f) s))

/-- SUB s (R126). -/
def execSub (src : R8) (s : State) : Result :=
  let v := readOperand src s
  .next (report (countFor 4 7 src) (setAccFlags (sub8 s.a v.1 false s.f) v.2))

/-- SUI d8 (R127). -/
def execSui (d8 : Byte) (s : State) : Result :=
  .next (report 7 (setAccFlags (sub8 s.a d8 false s.f) s))

/-- SBB s: the borrow is read before it is written (R128). -/
def execSbb (src : R8) (s : State) : Result :=
  let v := readOperand src s
  .next (report (countFor 4 7 src) (setAccFlags (sub8 s.a v.1 (flag .cy s.f) s.f) v.2))

/-- SBI d8 (R129). -/
def execSbi (d8 : Byte) (s : State) : Result :=
  .next (report 7 (setAccFlags (sub8 s.a d8 (flag .cy s.f) s.f) s))

/-- CMP s: the flags of the subtraction, the result discarded (R130). -/
def execCmp (src : R8) (s : State) : Result :=
  let v := readOperand src s
  .next (report (countFor 4 7 src) { v.2 with f := (sub8 s.a v.1 false s.f).2 })

/-- CPI d8: the flags of the subtraction, the result discarded (R131). -/
def execCpi (d8 : Byte) (s : State) : Result :=
  .next (report 7 { s with f := (sub8 s.a d8 false s.f).2 })

/-- INR d: one is added to a register or M; CY is not written (R132). -/
def execInr (dst : R8) (s : State) : Result :=
  let v := readOperand dst s
  let r := inc8 v.1 s.f
  .next (report (countFor 5 10 dst) (writeOperand dst r.1 { v.2 with f := r.2 }))

/-- DCR d: one is subtracted from a register or M; CY is not written (R133). -/
def execDcr (dst : R8) (s : State) : Result :=
  let v := readOperand dst s
  let r := dec8 v.1 s.f
  .next (report (countFor 5 10 dst) (writeOperand dst r.1 { v.2 with f := r.2 }))

/-- INX rp: one is added to a pair or SP, no flag is written (R134). -/
def execInx (rp : Rp) (s : State) : Result :=
  .next (report 5 (writeRp rp (readRp rp s + 1) s))

/-- DCX rp: one is subtracted from a pair or SP, no flag is written (R135). -/
def execDcx (rp : Rp) (s : State) : Result :=
  .next (report 5 (writeRp rp (readRp rp s - 1) s))

/-- DAD rp: a pair or SP is added to HL; CY alone is written (R136). -/
def execDad (rp : Rp) (s : State) : Result :=
  let r := add16 (hl s) (readRp rp s) s.f
  .next (report 10 (setHl r.1 { s with f := r.2 }))

/-- DAA: A is adjusted to two packed BCD digits (R137). -/
def execDaa (s : State) : Result :=
  .next (report 4 (setAccFlags (decimalAdjust s.a s.f) s))

end Sys2Proof.Machine
end

