-- ==== Sys2Proof/Machine/ControlFlow.lean ====
section
/-!
DEFINITION. The control-flow, halt, interrupt-enable and no-operation instructions (spec/43_control_flow.md). None writes
a flag (R180 h).
PC is already past the instruction's bytes when a meaning runs (R24, R53; Machine/Step.lean).
-/

namespace Sys2Proof.Machine

/-- JMP a16 (R181). -/
def execJmp (a16 : Word) (s : State) : Result :=
  .next (report 10 (jumpTo a16 s))

/-- JNZ a16 (R183, R182). -/
def execJnz (a16 : Word) (s : State) : Result :=
  .next (jumpIf .nz a16 s)

/-- JZ a16 (R184, R182). -/
def execJz (a16 : Word) (s : State) : Result :=
  .next (jumpIf .z a16 s)

/-- JNC a16 (R185, R182). -/
def execJnc (a16 : Word) (s : State) : Result :=
  .next (jumpIf .nc a16 s)

/-- JC a16 (R186, R182). -/
def execJc (a16 : Word) (s : State) : Result :=
  .next (jumpIf .c a16 s)

/-- JPO a16 (R187, R182). -/
def execJpo (a16 : Word) (s : State) : Result :=
  .next (jumpIf .po a16 s)

/-- JPE a16 (R188, R182). -/
def execJpe (a16 : Word) (s : State) : Result :=
  .next (jumpIf .pe a16 s)

/-- JP a16 (R189, R182). -/
def execJp (a16 : Word) (s : State) : Result :=
  .next (jumpIf .p a16 s)

/-- JM a16 (R190, R182). -/
def execJm (a16 : Word) (s : State) : Result :=
  .next (jumpIf .m a16 s)

/-- CALL a16: the return address is pushed, then PC is the target (R191). -/
def execCall (a16 : Word) (s : State) : Result :=
  .next (report 17 (callTo a16 s))

/-- CNZ a16 (R193, R192). -/
def execCnz (a16 : Word) (s : State) : Result :=
  .next (callIf .nz a16 s)

/-- CZ a16 (R194, R192). -/
def execCz (a16 : Word) (s : State) : Result :=
  .next (callIf .z a16 s)

/-- CNC a16 (R195, R192). -/
def execCnc (a16 : Word) (s : State) : Result :=
  .next (callIf .nc a16 s)

/-- CC a16 (R196, R192). -/
def execCc (a16 : Word) (s : State) : Result :=
  .next (callIf .c a16 s)

/-- CPO a16 (R197, R192). -/
def execCpo (a16 : Word) (s : State) : Result :=
  .next (callIf .po a16 s)

/-- CPE a16 (R198, R192). -/
def execCpe (a16 : Word) (s : State) : Result :=
  .next (callIf .pe a16 s)

/-- CP a16 (R199, R192). -/
def execCp (a16 : Word) (s : State) : Result :=
  .next (callIf .p a16 s)

/-- CM a16 (R200, R192). -/
def execCm (a16 : Word) (s : State) : Result :=
  .next (callIf .m a16 s)

/-- RET: PC is the popped word (R201). -/
def execRet (s : State) : Result :=
  .next (report 10 (returnFrom s))

/-- RNZ (R203, R202). -/
def execRnz (s : State) : Result :=
  .next (returnIf .nz s)

/-- RZ (R204, R202). -/
def execRz (s : State) : Result :=
  .next (returnIf .z s)

/-- RNC (R205, R202). -/
def execRnc (s : State) : Result :=
  .next (returnIf .nc s)

/-- RC (R206, R202). -/
def execRc (s : State) : Result :=
  .next (returnIf .c s)

/-- RPO (R207, R202). -/
def execRpo (s : State) : Result :=
  .next (returnIf .po s)

/-- RPE (R208, R202). -/
def execRpe (s : State) : Result :=
  .next (returnIf .pe s)

/-- RP (R209, R202). -/
def execRp (s : State) : Result :=
  .next (returnIf .p s)

/-- RM (R210, R202). -/
def execRm (s : State) : Result :=
  .next (returnIf .m s)

/-- The target of RST n: `8 * nnn` (R83, R211). -/
def rstTarget (n : BitVec 3) : Word := n.setWidth 16 * 8

/-- RST n: a one-byte call to address `8 * n` (R211). -/
def execRst (n : BitVec 3) (s : State) : Result :=
  .next (report 11 (callTo (rstTarget n) s))

/-- PCHL: PC is HL, nothing is pushed (R212). -/
def execPchl (s : State) : Result :=
  .next (report 5 (jumpTo (hl s) s))

/-- HLT: `halted <- 1`; PC stays after the HLT byte (R213). -/
def execHlt (s : State) : Result :=
  .next (report 7 { s with halted := true })

/-- EI: `inte <- 1`, at once (R215, R264). -/
def execEi (s : State) : Result :=
  .next (report 4 { s with inte := true })

/-- DI: `inte <- 0` (R216). -/
def execDi (s : State) : Result :=
  .next (report 4 { s with inte := false })

/-- NOP and its aliases, and the unrecognised opcode: nothing beyond the fetch (R217, R218). -/
def execNop (s : State) : Result :=
  .next (report 4 s)

end Sys2Proof.Machine
end

