-- ==== Sys2Proof/Machine/DataTransfer.lean ====
section
/-!
DEFINITION. The data transfer instructions (spec/40_data_transfer.md). None writes a flag (R100).
PC is already past the instruction's bytes when a meaning runs (R24, R53; Machine/Step.lean).
-/

namespace Sys2Proof.Machine

/-- The count of MOV: 5 between registers, 7 where either operand is M (R101, R265). -/
def movCount (dst src : R8) : Nat :=
  match dst, src with
  | .m, _ => 7
  | _, .m => 7
  | _, _ => 5

/-- MOV d,s: one byte is copied between registers or between a register and M (R101). -/
def execMov (dst src : R8) (s : State) : Result :=
  let v := readOperand src s
  .next (report (movCount dst src) (writeOperand dst v.1 v.2))

/-- MVI d,d8: an immediate byte is written to a register or to M (R102). -/
def execMvi (dst : R8) (d8 : Byte) (s : State) : Result :=
  .next (report (countFor 7 10 dst) (writeOperand dst d8 s))

/-- LXI rp,d16: a 16-bit immediate is written to a pair or to SP (R103). -/
def execLxi (rp : Rp) (d16 : Word) (s : State) : Result :=
  .next (report 10 (writeRp rp d16 s))

/-- LDA a16: `A <- MemRead(a, 1)` (R104). -/
def execLda (a16 : Word) (s : State) : Result :=
  .next (report 13 (setA (busRead a16 s)))

/-- STA a16: `MemWrite(a, 1, A)` (R105). -/
def execSta (a16 : Word) (s : State) : Result :=
  .next (report 13 (busWrite a16 s.a s))

/-- LHLD a16: `HL <- MemRead(a, 2)` (R106). -/
def execLhld (a16 : Word) (s : State) : Result :=
  let v := busReadWord a16 s
  .next (report 16 (setHl v.1 v.2))

/-- SHLD a16: `MemWrite(a, 2, HL)` (R107). -/
def execShld (a16 : Word) (s : State) : Result :=
  .next (report 16 (busWriteWord a16 (hl s) s))

/-- LDAX B, LDAX D: A is loaded through BC or DE (R108). -/
def execLdax (p : IndirectPair) (s : State) : Result :=
  .next (report 7 (setA (busRead (indirectAddr p s) s)))

/-- STAX B, STAX D: A is stored through BC or DE (R109). -/
def execStax (p : IndirectPair) (s : State) : Result :=
  .next (report 7 (busWrite (indirectAddr p s) s.a s))

/-- XCHG: DE and HL are exchanged (R110). -/
def execXchg (s : State) : Result :=
  .next (report 4 (setDe (hl s) (setHl (de s) s)))

end Sys2Proof.Machine
end

