-- ==== Sys2Proof/Machine/Logical.lean ====
section
/-!
DEFINITION. The logical, rotate, complement and carry instructions (spec/42_logical.md).
PC is already past the instruction's bytes when a meaning runs (R24, R53; Machine/Step.lean).
-/

namespace Sys2Proof.Machine

/-- ANA s (R151). -/
def execAna (src : R8) (s : State) : Result :=
  let v := readOperand src s
  .next (report (countFor 4 7 src) (setAccFlags (logic8 .and s.a v.1 s.f) v.2))

/-- ANI d8 (R152). -/
def execAni (d8 : Byte) (s : State) : Result :=
  .next (report 7 (setAccFlags (logic8 .and s.a d8 s.f) s))

/-- XRA s (R153). -/
def execXra (src : R8) (s : State) : Result :=
  let v := readOperand src s
  .next (report (countFor 4 7 src) (setAccFlags (logic8 .xor s.a v.1 s.f) v.2))

/-- XRI d8 (R154). -/
def execXri (d8 : Byte) (s : State) : Result :=
  .next (report 7 (setAccFlags (logic8 .xor s.a d8 s.f) s))

/-- ORA s (R155). -/
def execOra (src : R8) (s : State) : Result :=
  let v := readOperand src s
  .next (report (countFor 4 7 src) (setAccFlags (logic8 .or s.a v.1 s.f) v.2))

/-- ORI d8 (R156). -/
def execOri (d8 : Byte) (s : State) : Result :=
  .next (report 7 (setAccFlags (logic8 .or s.a d8 s.f) s))

/-- RLC (R157). -/
def execRlc (s : State) : Result :=
  .next (report 4 (setAccFlags (rotateLeft s.a s.f) s))

/-- RRC (R158). -/
def execRrc (s : State) : Result :=
  .next (report 4 (setAccFlags (rotateRight s.a s.f) s))

/-- RAL (R159). -/
def execRal (s : State) : Result :=
  .next (report 4 (setAccFlags (rotateLeftThroughCarry s.a s.f) s))

/-- RAR (R160). -/
def execRar (s : State) : Result :=
  .next (report 4 (setAccFlags (rotateRightThroughCarry s.a s.f) s))

/-- CMA: A is complemented, no flag is written (R161). -/
def execCma (s : State) : Result :=
  .next (report 4 { s with a := s.a ^^^ 0xFF })

/-- CMC: CY is complemented (R162). -/
def execCmc (s : State) : Result :=
  .next (report 4 { s with f := setFlag .cy (!flag .cy s.f) s.f })

/-- STC: CY is set (R163). -/
def execStc (s : State) : Result :=
  .next (report 4 { s with f := setFlag .cy true s.f })

end Sys2Proof.Machine
end

