-- ==== Sys2Proof/Machine/PortIo.lean ====
section
/-!
DEFINITION. Port input and output (spec/45_port_io.md). Neither writes a flag and neither can fail.
PC is already past the instruction's bytes when a meaning runs (R24, R53; Machine/Step.lean).
-/

namespace Sys2Proof.Machine

/-- IN port: `A <- PortRead(p)`, no flag (R232). -/
def execIn (port : Byte) (s : State) : Result :=
  .next (report 10 (setA (portRead port s)))

/-- OUT port: `PortWrite(p, A)` (R233). -/
def execOut (port : Byte) (s : State) : Result :=
  .next (report 10 (portWrite port s.a s))

end Sys2Proof.Machine
end

