-- ==== Sys2Proof/Machine/Stack.lean ====
section
/-!
DEFINITION. The stack instructions (spec/44_stack.md).
PC is already past the instruction's bytes when a meaning runs (R24, R53; Machine/Step.lean).
-/

namespace Sys2Proof.Machine

/-- PUSH rp: a pair or PSW is pushed (R221). -/
def execPush (rp : StackPair) (s : State) : Result :=
  .next (report 11 (push16 (readStackPair rp s) s))

/-- POP rp: a pair or PSW is popped; POP PSW applies the fixed bits of F again (R222). -/
def execPop (rp : StackPair) (s : State) : Result :=
  let popped := pop16 s
  .next (report 10 (writeStackPair rp popped.1 popped.2))

/-- XTHL: HL and the word on top of the stack are exchanged, both bytes read before either is written (R223). -/
def execXthl (s : State) : Result :=
  let v := busReadWord s.sp s
  .next (report 18 (setHl v.1 (busWriteWord s.sp (hl s) v.2)))

/-- SPHL: `SP <- HL` (R224). -/
def execSphl (s : State) : Result :=
  .next (report 5 { s with sp := hl s })

end Sys2Proof.Machine
end

