-- ==== Sys2Proof/Machine/Step.lean ====
section
/-!
DEFINITION. One step of the core (spec/00_scope.md R2): the idle step when `halted = 1` (R214); otherwise the
instruction at PC is fetched whole, PC moving past its bytes (R53), and executed. Nothing is fetched after something is
written (R57, R63).
-/

namespace Sys2Proof.Machine

def step (s : State) : Host.Outcome State Fault Refusal :=
  if s.halted then .next (idleStep (beginStep s))
  else exec (fetchInstr (beginStep s)).1 (fetchInstr (beginStep s)).2

/-- The state with the instruction of `decodeTableWord nbits w` stored at PC, where the next step fetches it. The
fetch needs `halted = 0` (R2), so that flip-flop is cleared. -/
def State.withFetchWord (s : State) (nbits w : Nat) : State :=
  hostLoad s.pc (tableBytes nbits w) { s with halted := false }

end Sys2Proof.Machine
end

