-- ==== Sys2Proof/Safety.lean ====
section
/-!
DEFINITION. The terms claims are stated in: the invariant of the machine, the end of a run, what a store and a register
write leave, the transactions of the memory interface, what an ALU instruction leaves, and the conditional and
control-transfer instructions by name.
-/

namespace Sys2Proof.Machine

/-- The fixed bits of F: bit 1 is 1, bits 3 and 5 are 0 (R27). -/
abbrev FixedBits (f : Byte) : Prop := f &&& 0x2A = 0x02

/-- The invariant every step keeps: the fixed bits of F (R27) and the canonical form of memory. -/
abbrev State.Inv (s : State) : Prop := FixedBits s.f ∧ s.mem.wf

/-- A run is over (R268). -/
abbrev State.Ended (s : State) : Prop := s.halted = true

/-- `new` holds the five flags given and the other three bits of `old`. -/
abbrev FlagsAre (old new : Byte) (sign zero aux par carry : Bool) : Prop :=
  flag .s new = sign ∧ flag .z new = zero ∧ flag .ac new = aux ∧ flag .p new = par ∧ flag .cy new = carry ∧
    new &&& 0x2A = old &&& 0x2A

/-- `t` is `s` but for one byte of memory: the byte at `addr` reads `v`, every other byte as before. -/
def StoresByte (s t : State) (addr : Word) (v : Byte) : Prop :=
  t = { s with mem := t.mem } ∧ ∀ x, memRead t x = if x = addr then v else memRead s x

/-- `t` is `s` but for one word of memory: the low byte of `w` at `addr`, the high byte at `addr + 1` modulo 65536,
every other byte as before. -/
def StoresWord (s t : State) (addr w : Word) : Prop :=
  t = { s with mem := t.mem } ∧
    ∀ x, memRead t x = if x = addr then loByte w else if x = addr + 1 then hiByte w else memRead s x

/-- `t` is `s` but for the register `r`, which holds `v`; for M, the byte at address HL (R22). -/
def WritesR8 (r : R8) (v : Byte) (s t : State) : Prop :=
  match r with
  | .b => t = { s with b := v }
  | .c => t = { s with c := v }
  | .d => t = { s with d := v }
  | .e => t = { s with e := v }
  | .h => t = { s with h := v }
  | .l => t = { s with l := v }
  | .m => StoresByte s t (hl s) v
  | .a => t = { s with a := v }

/-- `t` is `s` but for the pair `p`, which holds `w`, its high byte in the first-named register (R21, R23). -/
def WritesRp (p : Rp) (w : Word) (s t : State) : Prop :=
  match p with
  | .bc => t = { s with b := hiByte w, c := loByte w }
  | .de => t = { s with d := hiByte w, e := loByte w }
  | .hl => t = { s with h := hiByte w, l := loByte w }
  | .sp => t = { s with sp := w }

/-! ### The transactions of the memory interface (R57, R64) -/

/-- The reads that fetch an instruction of `n` bytes: the opcode byte, then the operand bytes, lower address first. -/
def fetchReads (s : State) (n : Nat) : List Transaction :=
  (List.range n).map fun k => .memRead (s.pc + BitVec.ofNat 16 k) (memRead s (s.pc + BitVec.ofNat 16 k))

/-- The reads of a word, lower address first. -/
def wordReads (s : State) (addr : Word) : List Transaction :=
  [.memRead addr (memRead s addr), .memRead (addr + 1) (memRead s (addr + 1))]

/-- The writes of a word, lower address first. -/
def wordWrites (addr w : Word) : List Transaction :=
  [.memWrite addr (loByte w), .memWrite (addr + 1) (hiByte w)]

/-- The reads of an 8-bit operand: one for M, none for a register. -/
def operandReads (s : State) (r : R8) : List Transaction :=
  if r = .m then [.memRead (hl s) (memRead s (hl s))] else []

/-- The writes of an 8-bit operand: one for M, none for a register. -/
def operandWrites (s : State) (r : R8) (v : Byte) : List Transaction :=
  if r = .m then [.memWrite (hl s) v] else []

/-- The reads of data an instruction presents, in R57's order: the M operand, the direct or indirect address, the top of
the stack (R55). `s` is the state after the fetch. -/
def dataReads (i : Instr) (s : State) : List Transaction :=
  match i with
  | .mov _ src | .add src | .adc src | .sub src | .sbb src | .cmp src | .ana src | .xra src | .ora src =>
    operandReads s src
  | .inr dst | .dcr dst => operandReads s dst
  | .lda a16 => [.memRead a16 (memRead s a16)]
  | .ldax p => [.memRead (indirectAddr p s) (memRead s (indirectAddr p s))]
  | .lhld a16 => wordReads s a16
  | .pop _ | .ret | .xthl => wordReads s s.sp
  | .rnz => if cond .nz s then wordReads s s.sp else []
  | .rz => if cond .z s then wordReads s s.sp else []
  | .rnc => if cond .nc s then wordReads s s.sp else []
  | .rc => if cond .c s then wordReads s s.sp else []
  | .rpo => if cond .po s then wordReads s s.sp else []
  | .rpe => if cond .pe s then wordReads s s.sp else []
  | .rp => if cond .p s then wordReads s s.sp else []
  | .rm => if cond .m s then wordReads s s.sp else []
  | .mvi _ _ | .lxi _ _ | .sta _ | .shld _ | .stax _ | .xchg | .adi _ | .aci _ | .sui _ | .sbi _ | .ani _
  | .xri _ | .ori _ | .cpi _ | .inx _ | .dcx _ | .dad _ | .daa | .rlc | .rrc | .ral | .rar | .cma | .cmc
  | .stc | .jmp _ | .jnz _ | .jz _ | .jnc _ | .jc _ | .jpo _ | .jpe _ | .jp _ | .jm _ | .call _ | .cnz _
  | .cz _ | .cnc _ | .cc _ | .cpo _ | .cpe _ | .cp _ | .cm _ | .rst _ | .pchl | .hlt | .ei | .di | .nop
  | .push _ | .sphl | .inPort _ | .outPort _ => []

/-- The port access an instruction presents: one for IN or OUT where its capability is present (R58, R230 to R235). -/
def portAccessOf (i : Instr) (s : State) : List PortAccess :=
  match i with
  | .inPort p => if Config.ioReadPresent then [.read p (Config.portIn s.portLog p)] else []
  | .outPort p => if Config.ioWritePresent then [.write p s.a] else []
  | _ => []

/-- The writes of data an instruction presents, in R57's order: the M operand, the direct or indirect address, the word
pushed, the top of the stack (R55). `s` is the state after the fetch. -/
def dataWrites (i : Instr) (s : State) : List Transaction :=
  match i with
  | .mov dst src => operandWrites s dst (readR8 src s)
  | .mvi dst d8 => operandWrites s dst d8
  | .inr dst => operandWrites s dst (readR8 dst s + 1)
  | .dcr dst => operandWrites s dst (readR8 dst s - 1)
  | .sta a16 => [.memWrite a16 s.a]
  | .stax p => [.memWrite (indirectAddr p s) s.a]
  | .shld a16 => wordWrites a16 (hl s)
  | .push p => wordWrites (s.sp - 2) (readStackPair p s)
  | .xthl => wordWrites s.sp (hl s)
  | .call _ | .rst _ => wordWrites (s.sp - 2) s.pc
  | .cnz _ => if cond .nz s then wordWrites (s.sp - 2) s.pc else []
  | .cz _ => if cond .z s then wordWrites (s.sp - 2) s.pc else []
  | .cnc _ => if cond .nc s then wordWrites (s.sp - 2) s.pc else []
  | .cc _ => if cond .c s then wordWrites (s.sp - 2) s.pc else []
  | .cpo _ => if cond .po s then wordWrites (s.sp - 2) s.pc else []
  | .cpe _ => if cond .pe s then wordWrites (s.sp - 2) s.pc else []
  | .cp _ => if cond .p s then wordWrites (s.sp - 2) s.pc else []
  | .cm _ => if cond .m s then wordWrites (s.sp - 2) s.pc else []
  | .lxi _ _ | .lda _ | .lhld _ | .ldax _ | .xchg | .add _ | .adc _ | .sub _ | .sbb _ | .ana _ | .xra _
  | .ora _ | .cmp _ | .adi _ | .aci _ | .sui _ | .sbi _ | .ani _ | .xri _ | .ori _ | .cpi _ | .inx _ | .dcx _
  | .dad _ | .daa | .rlc | .rrc | .ral | .rar | .cma | .cmc | .stc | .jmp _ | .jnz _ | .jz _ | .jnc _ | .jc _
  | .jpo _ | .jpe _ | .jp _ | .jm _ | .ret | .rnz | .rz | .rnc | .rc | .rpo | .rpe | .rp | .rm | .pchl | .hlt
  | .ei | .di | .nop | .pop _ | .sphl | .inPort _ | .outPort _ => []

/-- A memory `m` that answers every read of the sequence with the stored byte and accepts every write, in the order
given, ends as `m'` (R64). -/
def Accepts (m : Memory) (transactions : List Transaction) (m' : Memory) : Prop :=
  match transactions with
  | [] => m' = m
  | .memRead addr data :: ts => m.read addr.toNat = data ∧ Accepts m ts m'
  | .memWrite addr data :: ts => Accepts (m.write addr.toNat data) ts m'
  | .port _ :: ts => Accepts m ts m'

/-- The port accesses of a sequence of transactions. -/
def portAccesses : List Transaction → List PortAccess
  | [] => []
  | .port access :: ts => access :: portAccesses ts
  | .memRead _ _ :: ts | .memWrite _ _ :: ts => portAccesses ts

/-- What a run of `n` steps presents, and the state it ends in. -/
def runFor : Nat → State → List Transaction × State
  | 0, s => ([], s)
  | n + 1, s =>
    match step s with
    | .next t => (t.bus ++ (runFor n t).1, (runFor n t).2)
    | .fault _ | .refused _ => ([], s)

/-! ### What an ALU instruction leaves -/

/-- `t` is `s` but for A, which holds `res`, the count, and F: S, Z, P from `res` (R28), AC and CY as given. What is
presented to memory is not said here (`dataReads` says it). -/
def AluResult (s t : State) (res : Byte) (aux carry : Bool) (count : Nat) : Prop :=
  t = { s with a := res, f := t.f, cycles := count, bus := t.bus } ∧
    FlagsAre s.f t.f (res.getLsbD 7) (res == 0) aux (parity res) carry

/-- What an addition of `v` and a carry-in to A leaves (R120). -/
def Adds (s t : State) (v : Byte) (cin : Bool) (count : Nat) : Prop :=
  AluResult s t (s.a + v + BitVec.ofNat 8 cin.toNat)
    (decide (16 ≤ s.a.toNat % 16 + v.toNat % 16 + cin.toNat)) (decide (256 ≤ s.a.toNat + v.toNat + cin.toNat)) count

/-- What a subtraction of `v` and a borrow-in from A leaves (R121). -/
def Subtracts (s t : State) (v : Byte) (bin : Bool) (count : Nat) : Prop :=
  AluResult s t (s.a - v - BitVec.ofNat 8 bin.toNat)
    (decide (s.a.toNat % 16 < v.toNat % 16 + bin.toNat)) (decide (s.a.toNat < v.toNat + bin.toNat)) count

/-- What a comparison of A with `v` leaves: the flags of the subtraction; A and all else as before (R130),
but for what is presented to memory (`dataReads`). -/
def Compares (s t : State) (v : Byte) (count : Nat) : Prop :=
  t = { s with f := t.f, cycles := count, bus := t.bus } ∧
    FlagsAre s.f t.f ((s.a - v).getLsbD 7) (s.a == v) (decide (s.a.toNat % 16 < v.toNat % 16)) (parity (s.a - v))
      (decide (s.a.toNat < v.toNat))

/-- JNZ, JZ, JNC, JC, JPO, JPE, JP, JM by condition code (R183 to R190). -/
def jumpInstr (k : Cond) (target : Word) : Instr :=
  match k with
  | .nz => .jnz target
  | .z => .jz target
  | .nc => .jnc target
  | .c => .jc target
  | .po => .jpo target
  | .pe => .jpe target
  | .p => .jp target
  | .m => .jm target

/-- CNZ, CZ, CNC, CC, CPO, CPE, CP, CM by condition code (R193 to R200). -/
def callInstr (k : Cond) (target : Word) : Instr :=
  match k with
  | .nz => .cnz target
  | .z => .cz target
  | .nc => .cnc target
  | .c => .cc target
  | .po => .cpo target
  | .pe => .cpe target
  | .p => .cp target
  | .m => .cm target

/-- RNZ, RZ, RNC, RC, RPO, RPE, RP, RM by condition code (R203 to R210). -/
def returnInstr (k : Cond) : Instr :=
  match k with
  | .nz => .rnz
  | .z => .rz
  | .nc => .rnc
  | .c => .rc
  | .po => .rpo
  | .pe => .rpe
  | .p => .rp
  | .m => .rm

/-- Whether an instruction may set PC to something other than the address after it (R24, R180). -/
def mayTransfer : Instr → Bool
  | .jmp _ | .jnz _ | .jz _ | .jnc _ | .jc _ | .jpo _ | .jpe _ | .jp _ | .jm _ => true
  | .call _ | .cnz _ | .cz _ | .cnc _ | .cc _ | .cpo _ | .cpe _ | .cp _ | .cm _ => true
  | .ret | .rnz | .rz | .rnc | .rc | .rpo | .rpe | .rp | .rm | .rst _ | .pchl => true
  | .mov _ _ | .mvi _ _ | .lxi _ _ | .lda _ | .sta _ | .lhld _ | .shld _ | .ldax _ | .stax _ | .xchg | .add _
  | .adc _ | .sub _ | .sbb _ | .ana _ | .xra _ | .ora _ | .cmp _ | .adi _ | .aci _ | .sui _ | .sbi _ | .ani _
  | .xri _ | .ori _ | .cpi _ | .inr _ | .dcr _ | .inx _ | .dcx _ | .dad _ | .daa | .rlc | .rrc | .ral | .rar
  | .cma | .cmc | .stc | .hlt | .ei | .di | .nop | .push _ | .pop _ | .xthl | .sphl | .inPort _ | .outPort _ => false

/-- The twelve alias opcodes (R87). -/
def aliasOpcodes : List Byte :=
  [0x08, 0x10, 0x18, 0x20, 0x28, 0x30, 0x38, 0xCB, 0xD9, 0xDD, 0xED, 0xFD]

/-- A byte of two decimal digits. -/
abbrev IsBcd (v : Byte) : Prop := v.toNat / 16 ≤ 9 ∧ v.toNat % 16 ≤ 9

/-- The number two packed decimal digits stand for. -/
def bcdValue (v : Byte) : Nat := 10 * (v.toNat / 16) + v.toNat % 16

end Sys2Proof.Machine
end

