-- ==== Sys2Proof/Certificates/Slice0/Obligations.lean ====
section
/-!
DEFINITION. The statements for the provers, from the numbered rules of spec/. Where an instruction's statement is an
equation of the whole next state (or says `t = { s with … }`), its frame is in it: every register, flag, flip-flop,
memory byte and port access not named is as before. Where it names `bus := t.bus`, it leaves the transactions the
instruction presents to EveryStepPresentsItsAccesses, which gives them for every instruction. PC is the address after
the instruction's bytes when `exec` runs (StepRunsDecodedInstruction says so), so an instruction that does not name `pc`
leaves it there.
-/

open Sys2Proof Sys2Proof.Machine

/-! ### The decoder (spec/30_encoding.md) -/

/-- R82: decoding the encoding of any well-formed instruction gives it back, whatever bytes follow. -/
def Obligations.DecodeEncodeRoundTrip : Prop :=
  ∀ (i : Instr) (rest : List Byte), i.wellFormed = true → decode (encode i ++ rest) = .ok i rest

/-- R82, R84: bytes that decode and do not begin with one of the twelve alias opcodes are the encoding of what they
decode to, which is well-formed. -/
def Obligations.EncodeDecodeCanonicalBytes : Prop :=
  ∀ (op : Byte) (bs rest : List Byte) (i : Instr), op ∉ aliasOpcodes → decode (op :: bs) = .ok i rest →
    encode i ++ rest = op :: bs ∧ i.wellFormed = true

/-- R80, R82: every opcode byte selects one well-formed instruction, one to three bytes long, and the length does not
depend on the bytes after it. -/
def Obligations.EveryOpcodeSelectsOneInstruction : Prop :=
  ∀ op : Byte, ∃ n : Nat, 1 ≤ n ∧ n ≤ 3 ∧ ∀ (b2 b3 : Byte) (rest : List Byte), ∃ i : Instr,
    i.wellFormed = true ∧ i.length = n ∧
      decode (op :: b2 :: b3 :: rest) = .ok i ((op :: b2 :: b3 :: rest).drop n)

/-- R87: the twelve alias opcodes decode exactly as NOP, JMP, RET and CALL do. Which bytes they are is the spec's
decision D10. -/
def Obligations.AliasOpcodesDecodeAsCanonical : Prop :=
  ∀ rest : List Byte,
    (∀ op ∈ [(0x08 : Byte), 0x10, 0x18, 0x20, 0x28, 0x30, 0x38],
      decode (op :: rest) = .ok .nop rest ∧ decode (op :: rest) = decode (0x00 :: rest)) ∧
    ∀ lo hi : Byte,
      (decode (0xCB :: lo :: hi :: rest) = .ok (.jmp (joinBytes hi lo)) rest ∧
        decode (0xCB :: lo :: hi :: rest) = decode (0xC3 :: lo :: hi :: rest)) ∧
      (decode (0xD9 :: rest) = .ok .ret rest ∧ decode (0xD9 :: rest) = decode (0xC9 :: rest)) ∧
      ∀ op ∈ [(0xDD : Byte), 0xED, 0xFD],
        decode (op :: lo :: hi :: rest) = .ok (.call (joinBytes hi lo)) rest ∧
          decode (op :: lo :: hi :: rest) = decode (0xCD :: lo :: hi :: rest)

/-- Words written out from R84, one or more for each family. The opcode values are the spec's decision D9. -/
def Obligations.SampleWordsDecode : Prop :=
  decode [0b01111110] = .ok (.mov .a .m) [] ∧ decode [0b01110110] = .ok .hlt [] ∧
  decode [0b00100001, 0x34, 0x12] = .ok (.lxi .hl 0x1234) [] ∧ decode [0b10011101] = .ok (.sbb .l) [] ∧
  decode [0b11111110, 0x0A] = .ok (.cpi 0x0A) [] ∧ decode [0b00101111] = .ok .cma [] ∧
  decode [0b11001100, 0x00, 0x20] = .ok (.cz 0x2000) [] ∧ decode [0b11011111] = .ok (.rst 3) [] ∧
  decode [0b11110101] = .ok (.push .psw) [] ∧ decode [0b00110011] = .ok (.inx .sp) [] ∧
  decode [0b11010011, 0x01] = .ok (.outPort 0x01) []

/-! ### The step (spec/00_scope.md R2 to R4, spec/10_state.md R24, R33, R34) -/

/-- R2, R24, R53: when `halted = 0` and the bytes at PC decode to `i`, the step is `exec i` with PC past the bytes of
`i`, the reads of those bytes, in the order of R57 (the spec's decision D15), being what the step has presented so far
(the field `bus`, log entry 6). -/
def Obligations.StepRunsDecodedInstruction : Prop :=
  ∀ (s : State) (i : Instr) (rest : List Byte), s.halted = false →
    decode [memRead s s.pc, memRead s (s.pc + 1), memRead s (s.pc + 2)] = .ok i rest →
    step s = exec i { s with pc := s.pc + BitVec.ofNat 16 i.length, bus := fetchReads s i.length }

/-- R214: a step taken with `halted = 1` changes no state, makes no memory or port access (`bus`, the model's record of
them, log entry 6, is empty) and reports 4 cycles. -/
def Obligations.IdleStepChangesNothing : Prop :=
  ∀ s : State, s.halted = true → step s = .next { s with cycles := 4, bus := [] }

/-- R4: no step faults; every step, and every instruction from every state, has a next state. -/
def Obligations.NoStepFaults : Prop :=
  (∀ s : State, ∃ t, step s = .next t) ∧ ∀ (i : Instr) (s : State), ∃ t, exec i s = .next t

/-- R33: HLT alone sets `halted`, and no step clears it. -/
def Obligations.HaltedSetByHltAlone : Prop :=
  ∀ s : State, ∃ t, step s = .next t ∧ t.halted = (s.halted || memRead s s.pc == 0x76)

/-- R34: EI sets `inte`, DI clears it, no other step writes it. -/
def Obligations.InteWrittenByEiDiAlone : Prop :=
  ∀ s : State, ∃ t, step s = .next t ∧
    t.inte = (if s.halted = true then s.inte else if memRead s s.pc = 0xFB then true
      else if memRead s s.pc = 0xF3 then false else s.inte)

/-- R34, R241: nothing reads `inte`: two states that differ in it alone step to states that differ in it at most,
the port oracle answering both alike (log entry 3). -/
def Obligations.NothingReadsInte : Prop :=
  ∀ (s : State) (x : Bool), ∃ (t : State) (y : Bool),
    step s = .next t ∧ step { s with inte := x } = .next { t with inte := y }

/-- R266, for the model's field `cycles` (log entry 2): nothing depends on a cycle count, so the count an earlier step
reported changes nothing in the next step, the port oracle answering both alike (log entry 3). -/
def Obligations.NothingReadsCycleCount : Prop :=
  ∀ (s : State) (n : Nat), step { s with cycles := n } = step s

/-- R265 and law W15: every step reports a count in 4, 5, 7, 10, 11, 13, 16, 17, 18. -/
def Obligations.StepCountsAreInTable : Prop :=
  ∀ s : State, ∃ t, step s = .next t ∧ t.cycles ∈ [4, 5, 7, 10, 11, 13, 16, 17, 18]

/-- R24 and law W20: a step that runs no control transfer moves PC past the instruction, modulo 65536. -/
def Obligations.PcAdvancesPastInstruction : Prop :=
  ∀ (s : State) (i : Instr) (rest : List Byte), s.halted = false →
    decode [memRead s s.pc, memRead s (s.pc + 1), memRead s (s.pc + 2)] = .ok i rest → mayTransfer i = false →
    ∃ t, step s = .next t ∧ t.pc.toNat = (s.pc.toNat + i.length) % 65536

/-- R58, R235, in the model's record of transactions (log entry 3): an executed IN or OUT makes one port access where
its capability is present; nothing else makes any. -/
def Obligations.PortAccessesByInOutAlone : Prop :=
  ∀ (i : Instr) (s : State), ∃ t, exec i s = .next t ∧
    t.portLog = s.portLog ++ (match i with
      | .inPort p => if Config.ioReadPresent then [.read p t.a] else []
      | .outPort p => if Config.ioWritePresent then [.write p s.a] else []
      | _ => [])

/-! ### Reset and the invariant -/

/-- R37 and R261, creation. The register values are the spec's own decisions D3 and D4 (log entry 1); the count and
the two empty records of transactions are the model's (log entries 2, 3 and 6). -/
def Obligations.CreationValues : Prop :=
  State.reset.pc = 0x0000 ∧ State.reset.halted = false ∧ State.reset.inte = false ∧ State.reset.f = 0x02 ∧
  State.reset.a = 0x00 ∧ State.reset.b = 0x00 ∧ State.reset.c = 0x00 ∧ State.reset.d = 0x00 ∧
  State.reset.e = 0x00 ∧ State.reset.h = 0x00 ∧ State.reset.l = 0x00 ∧ State.reset.sp = 0x0000 ∧
  (∀ addr : Word, memRead State.reset addr = 0x00) ∧ State.reset.cycles = 0 ∧ State.reset.portLog = [] ∧
  State.reset.bus = []

/-- Reset (R260) gives the registers, PC and flip-flops their reset values and keeps memory, and the next step fetches
at address 0. The values are the spec's decisions D3 to D5 (log entry 1). R260 says nothing of what is no state of the
machine: that the last count, the port accesses made and the transactions of the last step stay as they were is the
model's choice (log entries 2, 3 and 6). -/
def Obligations.HostResetKeepsMemory : Prop :=
  ∀ s : State,
    hostReset s = { s with
      a := 0x00, b := 0x00, c := 0x00, d := 0x00, e := 0x00, h := 0x00, l := 0x00, f := 0x02, sp := 0x0000,
      pc := 0x0000, halted := false, inte := false } ∧
    ∀ i rest, decode [memRead s 0x0000, memRead s 0x0001, memRead s 0x0002] = .ok i rest →
      step (hostReset s) = exec i { hostReset s with
        pc := BitVec.ofNat 16 i.length, bus := fetchReads (hostReset s) i.length }

/-- The invariant holds at reset. -/
def Obligations.InvariantHoldsAtReset : Prop := State.reset.Inv

/-- R27 and the canonical form of memory: every step keeps the invariant. -/
def Obligations.EveryStepKeepsInvariant : Prop :=
  ∀ s t : State, s.Inv → step s = .next t → t.Inv

/-- R27, the places of the flags being the spec's decision D6 (R26): a write of one flag changes that bit only; the load
of a whole byte leaves the fixed bits 1, 0, 0 at places 1, 3, 5 and takes the five live bits from it. -/
def Obligations.FlagWritesKeepFixedBits : Prop :=
  (∀ (x : Flag) (v : Bool) (f : Byte),
    flag x (setFlag x v f) = v ∧ ∀ i, i < 8 → i ≠ x.pos → (setFlag x v f).getLsbD i = f.getLsbD i) ∧
  ∀ v : Byte, FixedBits (loadFlags v) ∧ ∀ x : Flag, flag x (loadFlags v) = v.getLsbD x.pos

/-- Two memories in canonical form that read alike at every address are the same data. -/
def Obligations.CanonicalMemoriesDetermined : Prop :=
  ∀ m n : Memory, m.wf → n.wf → (∀ a, a < 65536 → m.read a = n.read a) → m = n

/-! ### Memory and the stack primitives (spec/20_memory.md) -/

/-- R50: a byte write sets the byte a read of that address gives and changes nothing else; so a second write to an
address replaces the first, writes to two addresses may change places, and writing back what is there changes nothing.
The three are equations of states, which memory's canonical form makes true. -/
def Obligations.ByteAccessReadsLastWrite : Prop :=
  ∀ (s : State) (addr : Word) (v : Byte), StoresByte s (memWrite addr v s) addr v ∧
    (s.mem.wf → memWrite addr (memRead s addr) s = s ∧ ∀ (other : Word) (w : Byte),
      memWrite addr v (memWrite addr w s) = memWrite addr v s ∧
      (addr ≠ other → memWrite addr v (memWrite other w s) = memWrite other w (memWrite addr v s)))

/-- R51: a word is little-endian, its second byte at the next address modulo 65536, for data and fetch alike. -/
def Obligations.WordAccessLittleEndian : Prop :=
  ∀ (s : State) (addr w : Word),
    (busReadWord addr s).1.toNat = (memRead s (addr + 1)).toNat * 256 + (memRead s addr).toNat ∧
    StoresWord { s with bus := (busWriteWord addr w s).bus } (busWriteWord addr w s) addr w ∧
    (busReadWord addr (busWriteWord addr w s)).1 = w ∧
    (busReadWord 0xFFFF s).1 = joinBytes (memRead s 0x0000) (memRead s 0xFFFF) ∧
    (fetch16 s).1 = (busReadWord s.pc s).1

/-- R53: the two fetches read at PC and advance it; the lower address holds the low byte. What they present, lower
address first, is R57's order, the spec's decision D15 (the field `bus`, log entry 6). -/
def Obligations.FetchReadsAndAdvances : Prop :=
  ∀ s : State,
    fetch8 s = (memRead s s.pc, { s with pc := s.pc + 1, bus := s.bus ++ [.memRead s.pc (memRead s s.pc)] }) ∧
    fetch16 s = (joinBytes (memRead s (s.pc + 1)) (memRead s s.pc), { s with
      pc := s.pc + 2
      bus := s.bus ++ [.memRead s.pc (memRead s s.pc), .memRead (s.pc + 1) (memRead s (s.pc + 1))] })

/-- R63, which the spec derives from R50, R53 and R57: a byte stored is what the next fetch at its address reads. -/
def Obligations.StoreSeenByNextFetch : Prop :=
  ∀ (s : State) (addr : Word), ∃ t, exec (.sta addr) s = .next t ∧ (fetch8 { t with pc := addr }).1 = s.a

/-- R54, whose layout is the spec's decision D12: a push lowers SP by 2 and stores the word there; a pop
reads the word at SP and raises SP by 2; a pop after a push yields the word and restores SP. The two accesses of each
are presented lower address first (R57, decision D15; the field `bus`, log entry 6). -/
def Obligations.PopUndoesPush : Prop :=
  ∀ (s : State) (w : Word),
    StoresWord { s with sp := s.sp - 2, bus := s.bus ++ wordWrites (s.sp - 2) w } (push16 w s) (s.sp - 2) w ∧
    pop16 s =
      (joinBytes (memRead s (s.sp + 1)) (memRead s s.sp), { s with sp := s.sp + 2, bus := s.bus ++ wordReads s s.sp }) ∧
    (pop16 (push16 w s)).1 = w ∧ (pop16 (push16 w s)).2.sp = s.sp

/-! ### Registers, selectors, flags (spec/10_state.md) -/

/-- R21: BC, DE and HL are views, the first-named register the high byte. -/
def Obligations.PairViewsPackHighByteFirst : Prop :=
  ∀ (s : State) (w : Word),
    (bc s).toNat = s.b.toNat * 256 + s.c.toNat ∧ (de s).toNat = s.d.toNat * 256 + s.e.toNat ∧
    (hl s).toNat = s.h.toNat * 256 + s.l.toNat ∧
    WritesRp .bc w s (setBc w s) ∧ WritesRp .de w s (setDe w s) ∧ WritesRp .hl w s (setHl w s) ∧
    (hiByte w).toNat = w.toNat / 256 ∧ (loByte w).toNat = w.toNat % 256 ∧
    bc (setBc w s) = w ∧ de (setDe w s) = w ∧ hl (setHl w s) = w

/-- R22, R23: which operand each selector value names, for reads and for writes. The numbering of the registers is the
spec's decision D7. -/
def Obligations.SelectorsNameOperands : Prop :=
  ∀ (s : State) (v : Byte) (w : Word),
    (readR8 (R8.ofSel 0) s = s.b ∧ readR8 (R8.ofSel 1) s = s.c ∧ readR8 (R8.ofSel 2) s = s.d ∧
      readR8 (R8.ofSel 3) s = s.e ∧ readR8 (R8.ofSel 4) s = s.h ∧ readR8 (R8.ofSel 5) s = s.l ∧
      readR8 (R8.ofSel 6) s = memRead s (hl s) ∧ readR8 (R8.ofSel 7) s = s.a) ∧
    (∀ i : BitVec 3, WritesR8 (R8.ofSel i) v s (writeR8 (R8.ofSel i) v s) ∧ (R8.ofSel i).sel = i) ∧
    (readRp (Rp.ofSel 0) s = bc s ∧ readRp (Rp.ofSel 1) s = de s ∧ readRp (Rp.ofSel 2) s = hl s ∧
      readRp (Rp.ofSel 3) s = s.sp) ∧
    (∀ i : BitVec 2, WritesRp (Rp.ofSel i) w s (writeRp (Rp.ofSel i) w s) ∧ (Rp.ofSel i).sel = i) ∧
    (readStackPair (StackPair.ofSel 0) s = bc s ∧ readStackPair (StackPair.ofSel 1) s = de s ∧
      readStackPair (StackPair.ofSel 2) s = hl s ∧ readStackPair (StackPair.ofSel 3) s = psw s) ∧
    (writeStackPair (StackPair.ofSel 0) w s = setBc w s ∧ writeStackPair (StackPair.ofSel 1) w s = setDe w s ∧
      writeStackPair (StackPair.ofSel 2) w s = setHl w s ∧ writeStackPair (StackPair.ofSel 3) w s = setPsw w s)

/-- R28, R29: `szp` writes S, Z and P from the value and no other bit; P is 1 when the number of 1 bits is even. That
S, Z and P stand at bits 7, 6 and 2, which the mask 0x3B leaves out, is the spec's decision D6 (R26). -/
def Obligations.SzpWritesSignZeroParity : Prop :=
  (∀ v f : Byte, flag .s (szp v f) = v.getLsbD 7 ∧ (flag .z (szp v f) = true ↔ v = 0) ∧
    flag .p (szp v f) = parity v ∧ szp v f &&& 0x3B = f &&& 0x3B) ∧
  ∀ v : Byte, parity v = !(v.getLsbD 0 ^^ v.getLsbD 1 ^^ v.getLsbD 2 ^^ v.getLsbD 3 ^^ v.getLsbD 4 ^^
    v.getLsbD 5 ^^ v.getLsbD 6 ^^ v.getLsbD 7)

/-- R26, R31: the eight condition codes, each a test of one bit of F: Z bit 6, CY bit 0, P bit 2, S bit 7. The
numbering and the bit positions are the spec's decisions D8 and D6. -/
def Obligations.ConditionCodesTestOneFlag : Prop :=
  ∀ s : State,
    (cond .nz s = !s.f.getLsbD 6) ∧ cond .z s = s.f.getLsbD 6 ∧ (cond .nc s = !s.f.getLsbD 0) ∧
    cond .c s = s.f.getLsbD 0 ∧ (cond .po s = !s.f.getLsbD 2) ∧ cond .pe s = s.f.getLsbD 2 ∧
    (cond .p s = !s.f.getLsbD 7) ∧ cond .m s = s.f.getLsbD 7

/-- R30: PSW is A:F; writing it writes A and F, the fixed-bit mask applied. -/
def Obligations.PswPacksAccumulatorAndFlags : Prop :=
  ∀ (s : State) (w : Word),
    (psw s).toNat = s.a.toNat * 256 + s.f.toNat ∧
    setPsw w s = { s with a := hiByte w, f := (loByte w &&& 0xD5) ||| 0x02 }

/-! ### Data transfer (spec/40_data_transfer.md) -/

/-- R101: MOV, its three forms, its counts and its encoding. The pair M, M is no MOV (R101; log entry 9). -/
def Obligations.MovCopiesOneByte : Prop :=
  ∀ (dst src : R8), ¬(dst = .m ∧ src = .m) →
    (∀ s : State, ∃ t, exec (.mov dst src) s = .next t ∧
      WritesR8 dst (readR8 src s) { s with cycles := if dst = .m ∨ src = .m then 7 else 5, bus := t.bus } t) ∧
    ∀ rest : List Byte, decode (opcodeOf 1 dst.sel src.sel :: rest) = .ok (.mov dst src) rest

/-- R102, R103: MVI and LXI, their counts and encodings. -/
def Obligations.ImmediateLoads : Prop :=
  (∀ (dst : R8) (d8 : Byte) (s : State), ∃ t, exec (.mvi dst d8) s = .next t ∧
    WritesR8 dst d8 { s with cycles := if dst = .m then 10 else 7, bus := t.bus } t) ∧
  (∀ (p : Rp) (d16 : Word) (s : State), ∃ t, exec (.lxi p d16) s = .next t ∧
    WritesRp p d16 { s with cycles := 10 } t) ∧
  ∀ (dst : R8) (p : Rp) (b2 b3 : Byte) (rest : List Byte),
    decode (opcodeOf 0 dst.sel 6 :: b2 :: rest) = .ok (.mvi dst b2) rest ∧
    decode (opcodeOf 0 (midOf p.sel 0) 1 :: b2 :: b3 :: rest) = .ok (.lxi p (joinBytes b3 b2)) rest

/-- R104, R105, R106, R107: LDA, STA, LHLD, SHLD, their counts and encodings. -/
def Obligations.DirectLoadsAndStores : Prop :=
  (∀ (a16 : Word) (s : State),
    (∃ t, exec (.lda a16) s = .next t ∧ t = { s with a := memRead s a16, cycles := 13, bus := t.bus }) ∧
    (∃ t, exec (.sta a16) s = .next t ∧ StoresByte { s with cycles := 13, bus := t.bus } t a16 s.a) ∧
    (∃ t, exec (.lhld a16) s = .next t ∧
      t = { s with l := memRead s a16, h := memRead s (a16 + 1), cycles := 16, bus := t.bus }) ∧
    ∃ t, exec (.shld a16) s = .next t ∧ StoresWord { s with cycles := 16, bus := t.bus } t a16 (hl s)) ∧
  ∀ (lo hi : Byte) (rest : List Byte),
    decode (0x3A :: lo :: hi :: rest) = .ok (.lda (joinBytes hi lo)) rest ∧
    decode (0x32 :: lo :: hi :: rest) = .ok (.sta (joinBytes hi lo)) rest ∧
    decode (0x2A :: lo :: hi :: rest) = .ok (.lhld (joinBytes hi lo)) rest ∧
    decode (0x22 :: lo :: hi :: rest) = .ok (.shld (joinBytes hi lo)) rest

/-- R108, R109: LDAX and STAX, their counts and encodings, and the neighbours with bit 5 set, which are not theirs. -/
def Obligations.IndirectLoadsAndStores : Prop :=
  (∀ s : State,
    (∃ t, exec (.ldax .bc) s = .next t ∧ t = { s with a := memRead s (bc s), cycles := 7, bus := t.bus }) ∧
    (∃ t, exec (.ldax .de) s = .next t ∧ t = { s with a := memRead s (de s), cycles := 7, bus := t.bus }) ∧
    (∃ t, exec (.stax .bc) s = .next t ∧ StoresByte { s with cycles := 7, bus := t.bus } t (bc s) s.a) ∧
    ∃ t, exec (.stax .de) s = .next t ∧ StoresByte { s with cycles := 7, bus := t.bus } t (de s) s.a) ∧
  ∀ (lo hi : Byte) (rest : List Byte),
    decode (0x0A :: rest) = .ok (.ldax .bc) rest ∧ decode (0x1A :: rest) = .ok (.ldax .de) rest ∧
    decode (0x02 :: rest) = .ok (.stax .bc) rest ∧ decode (0x12 :: rest) = .ok (.stax .de) rest ∧
    decode (0x2A :: lo :: hi :: rest) = .ok (.lhld (joinBytes hi lo)) rest ∧
    decode (0x3A :: lo :: hi :: rest) = .ok (.lda (joinBytes hi lo)) rest ∧
    decode (0x22 :: lo :: hi :: rest) = .ok (.shld (joinBytes hi lo)) rest ∧
    decode (0x32 :: lo :: hi :: rest) = .ok (.sta (joinBytes hi lo)) rest

/-- R110: XCHG swaps H and D, L and E; two in a row restore both pairs. -/
def Obligations.XchgSwapsDeAndHl : Prop :=
  (∀ s : State,
    exec .xchg s = .next { s with d := s.h, e := s.l, h := s.d, l := s.e, cycles := 4 } ∧
    ∃ t, exec .xchg s = .next t ∧ exec .xchg t = .next { s with cycles := 4 }) ∧
  ∀ rest : List Byte, decode (0xEB :: rest) = .ok .xchg rest

/-! ### Arithmetic (spec/41_arithmetic.md) -/

/-- R122, R123, R124, R125: ADD, ADI, ADC, ACI, their flags, counts and encodings. -/
def Obligations.AdditionsSetAllFlags : Prop :=
  (∀ (src : R8) (d8 : Byte) (s : State),
    (∃ t, exec (.add src) s = .next t ∧ Adds s t (readR8 src s) false (if src = .m then 7 else 4)) ∧
    (∃ t, exec (.adi d8) s = .next t ∧ Adds s t d8 false 7) ∧
    (∃ t, exec (.adc src) s = .next t ∧ Adds s t (readR8 src s) (flag .cy s.f) (if src = .m then 7 else 4)) ∧
    ∃ t, exec (.aci d8) s = .next t ∧ Adds s t d8 (flag .cy s.f) 7) ∧
  ∀ (src : R8) (d8 : Byte) (rest : List Byte),
    decode (opcodeOf 2 0 src.sel :: rest) = .ok (.add src) rest ∧
    decode (0xC6 :: d8 :: rest) = .ok (.adi d8) rest ∧
    decode (opcodeOf 2 1 src.sel :: rest) = .ok (.adc src) rest ∧
    decode (0xCE :: d8 :: rest) = .ok (.aci d8) rest

/-- R126, R127, R128, R129: SUB, SUI, SBB, SBI, their flags (CY and AC the borrows), counts and encodings. -/
def Obligations.SubtractionsSetAllFlags : Prop :=
  (∀ (src : R8) (d8 : Byte) (s : State),
    (∃ t, exec (.sub src) s = .next t ∧ Subtracts s t (readR8 src s) false (if src = .m then 7 else 4)) ∧
    (∃ t, exec (.sui d8) s = .next t ∧ Subtracts s t d8 false 7) ∧
    (∃ t, exec (.sbb src) s = .next t ∧
      Subtracts s t (readR8 src s) (flag .cy s.f) (if src = .m then 7 else 4)) ∧
    ∃ t, exec (.sbi d8) s = .next t ∧ Subtracts s t d8 (flag .cy s.f) 7) ∧
  ∀ (src : R8) (d8 : Byte) (rest : List Byte),
    decode (opcodeOf 2 2 src.sel :: rest) = .ok (.sub src) rest ∧
    decode (0xD6 :: d8 :: rest) = .ok (.sui d8) rest ∧
    decode (opcodeOf 2 3 src.sel :: rest) = .ok (.sbb src) rest ∧
    decode (0xDE :: d8 :: rest) = .ok (.sbi d8) rest

/-- R130, R131 and law W4: CMP and CPI leave A; Z says A equals the operand, CY that A is less, unsigned. -/
def Obligations.ComparesLeaveAccumulator : Prop :=
  (∀ (src : R8) (d8 : Byte) (s : State),
    (∃ t, exec (.cmp src) s = .next t ∧ Compares s t (readR8 src s) (if src = .m then 7 else 4)) ∧
    ∃ t, exec (.cpi d8) s = .next t ∧ Compares s t d8 7) ∧
  ∀ (src : R8) (d8 : Byte) (rest : List Byte),
    decode (opcodeOf 2 7 src.sel :: rest) = .ok (.cmp src) rest ∧
    decode (0xFE :: d8 :: rest) = .ok (.cpi d8) rest

/-- R132, R133: INR and DCR write S, Z, P and AC and never CY; the AC formulas are the ones the spec derives from R120
and R121 (its decision D14). -/
def Obligations.IncrementDecrementKeepCarry : Prop :=
  (∀ (dst : R8) (s : State),
    (∃ t f', exec (.inr dst) s = .next t ∧
      WritesR8 dst (readR8 dst s + 1) { s with f := f', cycles := if dst = .m then 10 else 5, bus := t.bus } t ∧
      FlagsAre s.f f' ((readR8 dst s + 1).getLsbD 7) (readR8 dst s + 1 == 0)
        (decide ((readR8 dst s).toNat % 16 = 15)) (parity (readR8 dst s + 1)) (flag .cy s.f)) ∧
    ∃ t f', exec (.dcr dst) s = .next t ∧
      WritesR8 dst (readR8 dst s - 1) { s with f := f', cycles := if dst = .m then 10 else 5, bus := t.bus } t ∧
      FlagsAre s.f f' ((readR8 dst s - 1).getLsbD 7) (readR8 dst s - 1 == 0)
        (decide ((readR8 dst s).toNat % 16 = 0)) (parity (readR8 dst s - 1)) (flag .cy s.f)) ∧
  ∀ (dst : R8) (rest : List Byte),
    decode (opcodeOf 0 dst.sel 4 :: rest) = .ok (.inr dst) rest ∧
    decode (opcodeOf 0 dst.sel 5 :: rest) = .ok (.dcr dst) rest

/-- R134, R135: INX and DCX move a pair or SP by one modulo 65536 and write no flag. That INX writes none is
the spec's decision D11. -/
def Obligations.PairIncrementWritesNoFlag : Prop :=
  (∀ (p : Rp) (s : State),
    (∃ t w, exec (.inx p) s = .next t ∧ WritesRp p w { s with cycles := 5 } t ∧
      w.toNat = ((readRp p s).toNat + 1) % 65536) ∧
    ∃ t w, exec (.dcx p) s = .next t ∧ WritesRp p w { s with cycles := 5 } t ∧
      w.toNat = ((readRp p s).toNat + 65535) % 65536) ∧
  ∀ (p : Rp) (rest : List Byte),
    decode (opcodeOf 0 (midOf p.sel 0) 3 :: rest) = .ok (.inx p) rest ∧
    decode (opcodeOf 0 (midOf p.sel 1) 3 :: rest) = .ok (.dcx p) rest

/-- R136 and law W19: DAD adds to HL and writes CY alone, the carry out of bit 15. That S, Z, AC, P are kept is
the spec's decision D11, that CY is bit 0 its decision D6. -/
def Obligations.DadWritesCarryAlone : Prop :=
  (∀ (p : Rp) (s : State), ∃ t, exec (.dad p) s = .next t ∧
    t = { s with h := t.h, l := t.l, f := t.f, cycles := 10 } ∧ hl t = hl s + readRp p s ∧
    flag .cy t.f = decide (65536 ≤ (hl s).toNat + (readRp p s).toNat) ∧ t.f &&& 0xFE = s.f &&& 0xFE) ∧
  ∀ (p : Rp) (rest : List Byte), decode (opcodeOf 0 (midOf p.sel 1) 1 :: rest) = .ok (.dad p) rest

/-- R137: DAA. The low correction applies when the low nibble exceeds 9 or AC is set, the high correction when the
uncut value after it has a high part above 9 or CY is set, which is when A exceeds 0x99 or CY is set; CY is set when
the high correction applies and is never cleared (law W18). The points the source leaves open are the spec's
decision D13. -/
def Obligations.DaaCorrectsInTwoSteps : Prop :=
  (∀ s : State, ∃ (t : State) (low high : Bool), exec .daa s = .next t ∧
    (low = true ↔ 9 < s.a.toNat % 16 ∨ flag .ac s.f = true) ∧
    (high = true ↔ 9 < (s.a.toNat + (if low then 6 else 0)) / 16 ∨ flag .cy s.f = true) ∧
    (high = true ↔ 0x99 < s.a.toNat ∨ flag .cy s.f = true) ∧
    t.a.toNat = (s.a.toNat + (if low then 0x06 else 0) + (if high then 0x60 else 0)) % 256 ∧
    AluResult s t t.a (low && decide (10 ≤ s.a.toNat % 16)) high 4 ∧
    (flag .cy s.f = true → flag .cy t.f = true)) ∧
  ∀ rest : List Byte, decode (0x27 :: rest) = .ok .daa rest

/-- From R124 and R137 (with the spec's decision D13): after ADC of two bytes of decimal digits, DAA leaves their
decimal sum with the carry-in: two digits in A, the hundred in CY. -/
def Obligations.AdcThenDaaAddsDecimalDigits : Prop :=
  ∀ (src : R8) (s : State), IsBcd s.a → IsBcd (readR8 src s) →
    ∃ t u, exec (.adc src) s = .next t ∧ exec .daa t = .next u ∧ IsBcd u.a ∧
      bcdValue u.a + (if flag .cy u.f then 100 else 0) =
        bcdValue s.a + bcdValue (readR8 src s) + (flag .cy s.f).toNat

/-! ### Logic and rotates (spec/42_logical.md) -/

/-- R151 to R156, with the flags R150 gives (the S, Z, P of the logical operations are the spec's decision D16): ANA,
ANI, XRA, XRI, ORA, ORI. -/
def Obligations.LogicClearsCarry : Prop :=
  (∀ (src : R8) (d8 : Byte) (s : State),
    (∃ t, exec (.ana src) s = .next t ∧ AluResult s t (s.a &&& readR8 src s)
      (s.a.getLsbD 3 || (readR8 src s).getLsbD 3) false (if src = .m then 7 else 4)) ∧
    (∃ t, exec (.ani d8) s = .next t ∧ AluResult s t (s.a &&& d8) (s.a.getLsbD 3 || d8.getLsbD 3) false 7) ∧
    (∃ t, exec (.xra src) s = .next t ∧
      AluResult s t (s.a ^^^ readR8 src s) false false (if src = .m then 7 else 4)) ∧
    (∃ t, exec (.xri d8) s = .next t ∧ AluResult s t (s.a ^^^ d8) false false 7) ∧
    (∃ t, exec (.ora src) s = .next t ∧
      AluResult s t (s.a ||| readR8 src s) false false (if src = .m then 7 else 4)) ∧
    ∃ t, exec (.ori d8) s = .next t ∧ AluResult s t (s.a ||| d8) false false 7) ∧
  ∀ (src : R8) (d8 : Byte) (rest : List Byte),
    decode (opcodeOf 2 4 src.sel :: rest) = .ok (.ana src) rest ∧
    decode (0xE6 :: d8 :: rest) = .ok (.ani d8) rest ∧
    decode (opcodeOf 2 5 src.sel :: rest) = .ok (.xra src) rest ∧
    decode (0xEE :: d8 :: rest) = .ok (.xri d8) rest ∧
    decode (opcodeOf 2 6 src.sel :: rest) = .ok (.ora src) rest ∧
    decode (0xF6 :: d8 :: rest) = .ok (.ori d8) rest

/-- R157 to R160: RLC, RRC, RAL, RAR, bit by bit; that CY alone of the flags is written is the spec's reading of its
source, decision D16, that CY is bit 0 its decision D6. -/
def Obligations.RotatesMoveOneBit : Prop :=
  (∀ s : State,
    (∃ t, exec .rlc s = .next t ∧ t = { s with a := t.a, f := t.f, cycles := 4 } ∧
      t.a = s.a.rotateLeft 1 ∧ flag .cy t.f = s.a.getLsbD 7 ∧ t.f &&& 0xFE = s.f &&& 0xFE) ∧
    (∃ t, exec .rrc s = .next t ∧ t = { s with a := t.a, f := t.f, cycles := 4 } ∧
      t.a = s.a.rotateRight 1 ∧ flag .cy t.f = s.a.getLsbD 0 ∧ t.f &&& 0xFE = s.f &&& 0xFE) ∧
    (∃ t, exec .ral s = .next t ∧ t = { s with a := t.a, f := t.f, cycles := 4 } ∧
      t.a.toNat = (2 * s.a.toNat) % 256 + (flag .cy s.f).toNat ∧ flag .cy t.f = s.a.getLsbD 7 ∧
      t.f &&& 0xFE = s.f &&& 0xFE) ∧
    ∃ t, exec .rar s = .next t ∧ t = { s with a := t.a, f := t.f, cycles := 4 } ∧
      t.a.toNat = s.a.toNat / 2 + 128 * (flag .cy s.f).toNat ∧ flag .cy t.f = s.a.getLsbD 0 ∧
      t.f &&& 0xFE = s.f &&& 0xFE) ∧
  ∀ rest : List Byte,
    decode (0x07 :: rest) = .ok .rlc rest ∧ decode (0x0F :: rest) = .ok .rrc rest ∧
    decode (0x17 :: rest) = .ok .ral rest ∧ decode (0x1F :: rest) = .ok .rar rest

/-- From R159 and R160: RAR after RAL, and RAL after RAR, restores A and F. That the other flags are kept is the spec's
decision D16. -/
def Obligations.RotatesThroughCarryUndo : Prop :=
  ∀ s : State,
    (∃ t u, exec .ral s = .next t ∧ exec .rar t = .next u ∧ u = { s with cycles := 4 }) ∧
    ∃ t u, exec .rar s = .next t ∧ exec .ral t = .next u ∧ u = { s with cycles := 4 }

/-- R161, R162, R163: CMA writes no flag, CMC and STC write CY alone. The source names none of the three: what they do
and which flags they write is the spec's decision D16, that CY is bit 0 its decision D6. -/
def Obligations.ComplementAndCarryOps : Prop :=
  (∀ s : State,
    (∃ t, exec .cma s = .next t ∧ t = { s with a := t.a, cycles := 4 } ∧ t.a.toNat = 255 - s.a.toNat) ∧
    (∃ t, exec .cmc s = .next t ∧ t = { s with f := t.f, cycles := 4 } ∧
      (flag .cy t.f = !flag .cy s.f) ∧ t.f &&& 0xFE = s.f &&& 0xFE) ∧
    ∃ t, exec .stc s = .next t ∧ t = { s with f := t.f, cycles := 4 } ∧
      flag .cy t.f = true ∧ t.f &&& 0xFE = s.f &&& 0xFE) ∧
  ∀ rest : List Byte,
    decode (0x2F :: rest) = .ok .cma rest ∧ decode (0x3F :: rest) = .ok .cmc rest ∧
    decode (0x37 :: rest) = .ok .stc rest

/-! ### Control flow (spec/43_control_flow.md) -/

/-- R181 to R190: JMP, JNZ, JZ, JNC, JC, JPO, JPE, JP, JM: 10 cycles taken or not. -/
def Obligations.JumpsSetPcWhenConditionHolds : Prop :=
  (∀ (k : Cond) (target : Word) (s : State),
    exec (.jmp target) s = .next { s with pc := target, cycles := 10 } ∧
    exec (jumpInstr k target) s = .next { s with pc := if cond k s then target else s.pc, cycles := 10 }) ∧
  ∀ (k : Cond) (lo hi : Byte) (rest : List Byte),
    decode (0xC3 :: lo :: hi :: rest) = .ok (.jmp (joinBytes hi lo)) rest ∧
    decode (0xCB :: lo :: hi :: rest) = .ok (.jmp (joinBytes hi lo)) rest ∧
    decode (opcodeOf 3 k.code 2 :: lo :: hi :: rest) = .ok (jumpInstr k (joinBytes hi lo)) rest

/-- R191 to R200: CALL, CNZ, CZ, CNC, CC, CPO, CPE, CP, CM push the address after the instruction, little-endian at the
new SP, and go to the target; a conditional call not taken changes nothing but the count. -/
def Obligations.CallsPushReturnAddress : Prop :=
  (∀ (k : Cond) (target : Word) (s : State),
    (∃ t, exec (.call target) s = .next t ∧
      StoresWord { s with sp := s.sp - 2, pc := target, cycles := 17, bus := t.bus } t (s.sp - 2) s.pc) ∧
    ∃ t, exec (callInstr k target) s = .next t ∧
      (if cond k s then
        StoresWord { s with sp := s.sp - 2, pc := target, cycles := 17, bus := t.bus } t (s.sp - 2) s.pc
        else t = { s with cycles := 11 })) ∧
  ∀ (k : Cond) (lo hi : Byte) (rest : List Byte),
    (∀ op ∈ [(0xCD : Byte), 0xDD, 0xED, 0xFD],
      decode (op :: lo :: hi :: rest) = .ok (.call (joinBytes hi lo)) rest) ∧
    decode (opcodeOf 3 k.code 4 :: lo :: hi :: rest) = .ok (callInstr k (joinBytes hi lo)) rest

/-- R201 to R210: RET, RNZ, RZ, RNC, RC, RPO, RPE, RP, RM pop PC; a conditional return not taken changes nothing but the
count. -/
def Obligations.ReturnsPopPc : Prop :=
  (∀ (k : Cond) (s : State),
    (∃ t, exec .ret s = .next t ∧ t = { s with
      pc := joinBytes (memRead s (s.sp + 1)) (memRead s s.sp), sp := s.sp + 2, cycles := 10, bus := t.bus }) ∧
    ∃ t, exec (returnInstr k) s = .next t ∧ t = if cond k s then { s with
      pc := joinBytes (memRead s (s.sp + 1)) (memRead s s.sp), sp := s.sp + 2, cycles := 11, bus := t.bus }
      else { s with cycles := 5 }) ∧
  ∀ (k : Cond) (rest : List Byte),
    decode (0xC9 :: rest) = .ok .ret rest ∧ decode (0xD9 :: rest) = .ok .ret rest ∧
    decode (opcodeOf 3 k.code 0 :: rest) = .ok (returnInstr k) rest

/-- R180 and law W11: RET at the target of a CALL goes to the instruction after the CALL with SP restored. -/
def Obligations.ReturnUndoesCall : Prop :=
  ∀ (s : State) (target : Word), ∃ t u, exec (.call target) s = .next t ∧ t.pc = target ∧
    exec .ret t = .next u ∧ u = { s with mem := t.mem, cycles := 10, bus := u.bus }

/-- R211: RST n pushes the address after it and goes to 8 * n. -/
def Obligations.RstCallsLowAddress : Prop :=
  (∀ (n : BitVec 3) (s : State), ∃ t, exec (.rst n) s = .next t ∧
    StoresWord { s with sp := s.sp - 2, pc := BitVec.ofNat 16 (8 * n.toNat), cycles := 11, bus := t.bus } t
      (s.sp - 2) s.pc) ∧
  ∀ (n : BitVec 3) (rest : List Byte), decode (opcodeOf 3 n 7 :: rest) = .ok (.rst n) rest

/-- R212, R213, R215, R216, R217: PCHL, HLT, EI, DI, NOP, the whole next state and the encodings. PC after HLT
and EI's taking effect at once are the spec's decisions D23 and D26. -/
def Obligations.HaltEnableNopPchl : Prop :=
  (∀ s : State,
    exec .pchl s = .next { s with pc := joinBytes s.h s.l, cycles := 5 } ∧
    exec .hlt s = .next { s with halted := true, cycles := 7 } ∧
    exec .ei s = .next { s with inte := true, cycles := 4 } ∧
    exec .di s = .next { s with inte := false, cycles := 4 } ∧
    exec .nop s = .next { s with cycles := 4 }) ∧
  ∀ rest : List Byte,
    decode (0xE9 :: rest) = .ok .pchl rest ∧ decode (0x76 :: rest) = .ok .hlt rest ∧
    decode (0xFB :: rest) = .ok .ei rest ∧ decode (0xF3 :: rest) = .ok .di rest ∧
    ∀ op ∈ [(0x00 : Byte), 0x08, 0x10, 0x18, 0x20, 0x28, 0x30, 0x38], decode (op :: rest) = .ok .nop rest

/-! ### Stack (spec/44_stack.md) -/

/-- R221, R222: PUSH and POP; POP PSW loads the five flags and forces the fixed bits. -/
def Obligations.PushAndPopPairs : Prop :=
  (∀ (p : StackPair) (s : State),
    (∃ t, exec (.push p) s = .next t ∧
      StoresWord { s with sp := s.sp - 2, cycles := 11, bus := t.bus } t (s.sp - 2) (readStackPair p s)) ∧
    (∃ t, exec (.pop .bc) s = .next t ∧ t = { s with
      c := memRead s s.sp, b := memRead s (s.sp + 1), sp := s.sp + 2, cycles := 10, bus := t.bus }) ∧
    (∃ t, exec (.pop .de) s = .next t ∧ t = { s with
      e := memRead s s.sp, d := memRead s (s.sp + 1), sp := s.sp + 2, cycles := 10, bus := t.bus }) ∧
    (∃ t, exec (.pop .hl) s = .next t ∧ t = { s with
      l := memRead s s.sp, h := memRead s (s.sp + 1), sp := s.sp + 2, cycles := 10, bus := t.bus }) ∧
    ∃ t, exec (.pop .psw) s = .next t ∧ t = { s with
      f := (memRead s s.sp &&& 0xD5) ||| 0x02, a := memRead s (s.sp + 1), sp := s.sp + 2, cycles := 10,
      bus := t.bus }) ∧
  ∀ (p : StackPair) (rest : List Byte),
    decode (opcodeOf 3 (midOf p.sel 0) 5 :: rest) = .ok (.push p) rest ∧
    decode (opcodeOf 3 (midOf p.sel 0) 1 :: rest) = .ok (.pop p) rest

/-- R223, R224: XTHL swaps HL with the word at SP and leaves SP; SPHL copies HL to SP. -/
def Obligations.XthlAndSphl : Prop :=
  (∀ s : State,
    (∃ t, exec .xthl s = .next t ∧
      StoresWord { s with l := memRead s s.sp, h := memRead s (s.sp + 1), cycles := 18, bus := t.bus } t s.sp
        (hl s)) ∧
    exec .sphl s = .next { s with sp := joinBytes s.h s.l, cycles := 5 }) ∧
  ∀ rest : List Byte, decode (0xE3 :: rest) = .ok .xthl rest ∧ decode (0xF9 :: rest) = .ok .sphl rest

/-- R225 and law W3: POP after PUSH of the same pair restores every register, and A and F where the pair is PSW, in
every state whose F has its fixed bits. -/
def Obligations.PopAfterPushRestores : Prop :=
  ∀ (p : StackPair) (s : State), FixedBits s.f →
    ∃ t u, exec (.push p) s = .next t ∧ exec (.pop p) t = .next u ∧
      u = { s with mem := t.mem, cycles := 10, bus := u.bus } ∧
      memRead t (s.sp - 2) = loByte (readStackPair p s) ∧ memRead t (s.sp - 1) = hiByte (readStackPair p s)

/-! ### Ports (spec/45_port_io.md) -/

/-- R230, R231: the port multiplexer under each configuration. That the answer is a free value of the port history,
and the two records of transactions, are the model's (log entries 3, 4 and 6). -/
def Obligations.PortMultiplexerDefaults : Prop :=
  ∀ (answer p v : Byte) (s : State),
    portReadWith false answer p s = (0xFF, s) ∧
    portReadWith true answer p s = (answer, { s with
      portLog := s.portLog ++ [.read p answer], bus := s.bus ++ [.port (.read p answer)] }) ∧
    portWriteWith false p v s = s ∧
    portWriteWith true p v s = { s with
      portLog := s.portLog ++ [.write p v], bus := s.bus ++ [.port (.write p v)] } ∧
    portRead p s = portReadWith Config.ioReadPresent (Config.portIn s.portLog p) p s ∧
    portWrite p v s = portWriteWith Config.ioWritePresent p v s

/-- R232, R233: IN writes A with what PortRead gives, OUT hands A to PortWrite; neither writes a flag or memory. The
answer `Config.portIn`, a free value, and the two records of transactions are the model's (log entries 3, 4 and 6). -/
def Obligations.InAndOutUsePorts : Prop :=
  (∀ (p : Byte) (s : State),
    exec (.inPort p) s = .next { s with
      a := if Config.ioReadPresent then Config.portIn s.portLog p else 0xFF
      portLog := if Config.ioReadPresent then s.portLog ++ [.read p (Config.portIn s.portLog p)] else s.portLog
      bus := if Config.ioReadPresent then s.bus ++ [.port (.read p (Config.portIn s.portLog p))] else s.bus
      cycles := 10 } ∧
    exec (.outPort p) s = .next { s with
      portLog := if Config.ioWritePresent then s.portLog ++ [.write p s.a] else s.portLog
      bus := if Config.ioWritePresent then s.bus ++ [.port (.write p s.a)] else s.bus
      cycles := 10 }) ∧
  ∀ (p : Byte) (rest : List Byte),
    decode (0xDB :: p :: rest) = .ok (.inPort p) rest ∧ decode (0xD3 :: p :: rest) = .ok (.outPort p) rest

/-! ### The interfaces (spec/20_memory.md R57, R61, R64) -/

/-- R57, R64, R234 (the spec's decisions D1, D2, D15), in the model's record of what a step presents, the field `bus`
(log entry 6), the port oracle being the model's (log entries 3 and 4). A step presents, in this order, the reads of the
instruction's bytes, its data reads, its port access and its data writes, a word's lower address first, and an idle step
nothing, whatever an earlier step presented. A memory that answers each read with the stored byte and accepts each write
goes from the memory before to the memory after, and the port accesses are those added to the port record: for one step,
and for a run of any number of steps (R61). -/
def Obligations.EveryStepPresentsItsAccesses : Prop :=
  (∀ s : State, (∀ earlier : List Transaction, step { s with bus := earlier } = step s) ∧
    ∃ t, step s = .next t ∧ (s.halted = true → t.bus = []) ∧ ∀ (i : Instr) (rest : List Byte), s.halted = false →
      decode [memRead s s.pc, memRead s (s.pc + 1), memRead s (s.pc + 2)] = .ok i rest →
      t.bus = fetchReads s i.length ++ dataReads i s ++ (portAccessOf i s).map .port ++
        dataWrites i { s with pc := s.pc + BitVec.ofNat 16 i.length }) ∧
  ∀ (n : Nat) (s : State), Accepts s.mem (runFor n s).1 (runFor n s).2.mem ∧
    (runFor n s).2.portLog = s.portLog ++ portAccesses (runFor n s).1
end

