-- ==== Sys2Proof/Laws/State.lean ====
section
/-!
SUPPORT. What each field of the state is after each named update of Machine/Ops.lean and Machine/Operands.lean; for an
update that depends on a condition or an operand, the fields it leaves in every case.
-/

namespace Sys2Proof.Machine

/-! ### report -/

@[simp] theorem report_a (n : Nat) (s : State) : (report n s).a = s.a := rfl
@[simp] theorem report_b (n : Nat) (s : State) : (report n s).b = s.b := rfl
@[simp] theorem report_c (n : Nat) (s : State) : (report n s).c = s.c := rfl
@[simp] theorem report_d (n : Nat) (s : State) : (report n s).d = s.d := rfl
@[simp] theorem report_e (n : Nat) (s : State) : (report n s).e = s.e := rfl
@[simp] theorem report_h (n : Nat) (s : State) : (report n s).h = s.h := rfl
@[simp] theorem report_l (n : Nat) (s : State) : (report n s).l = s.l := rfl
@[simp] theorem report_f (n : Nat) (s : State) : (report n s).f = s.f := rfl
@[simp] theorem report_pc (n : Nat) (s : State) : (report n s).pc = s.pc := rfl
@[simp] theorem report_sp (n : Nat) (s : State) : (report n s).sp = s.sp := rfl
@[simp] theorem report_halted (n : Nat) (s : State) : (report n s).halted = s.halted := rfl
@[simp] theorem report_inte (n : Nat) (s : State) : (report n s).inte = s.inte := rfl
@[simp] theorem report_mem (n : Nat) (s : State) : (report n s).mem = s.mem := rfl
@[simp] theorem report_cycles (n : Nat) (s : State) : (report n s).cycles = n := rfl
@[simp] theorem report_portLog (n : Nat) (s : State) : (report n s).portLog = s.portLog := rfl
@[simp] theorem report_bus (n : Nat) (s : State) : (report n s).bus = s.bus := rfl

/-! ### jumpTo -/

@[simp] theorem jumpTo_a (target : Word) (s : State) : (jumpTo target s).a = s.a := rfl
@[simp] theorem jumpTo_b (target : Word) (s : State) : (jumpTo target s).b = s.b := rfl
@[simp] theorem jumpTo_c (target : Word) (s : State) : (jumpTo target s).c = s.c := rfl
@[simp] theorem jumpTo_d (target : Word) (s : State) : (jumpTo target s).d = s.d := rfl
@[simp] theorem jumpTo_e (target : Word) (s : State) : (jumpTo target s).e = s.e := rfl
@[simp] theorem jumpTo_h (target : Word) (s : State) : (jumpTo target s).h = s.h := rfl
@[simp] theorem jumpTo_l (target : Word) (s : State) : (jumpTo target s).l = s.l := rfl
@[simp] theorem jumpTo_f (target : Word) (s : State) : (jumpTo target s).f = s.f := rfl
@[simp] theorem jumpTo_pc (target : Word) (s : State) : (jumpTo target s).pc = target := rfl
@[simp] theorem jumpTo_sp (target : Word) (s : State) : (jumpTo target s).sp = s.sp := rfl
@[simp] theorem jumpTo_halted (target : Word) (s : State) : (jumpTo target s).halted = s.halted := rfl
@[simp] theorem jumpTo_inte (target : Word) (s : State) : (jumpTo target s).inte = s.inte := rfl
@[simp] theorem jumpTo_mem (target : Word) (s : State) : (jumpTo target s).mem = s.mem := rfl
@[simp] theorem jumpTo_cycles (target : Word) (s : State) : (jumpTo target s).cycles = s.cycles := rfl
@[simp] theorem jumpTo_portLog (target : Word) (s : State) : (jumpTo target s).portLog = s.portLog := rfl
@[simp] theorem jumpTo_bus (target : Word) (s : State) : (jumpTo target s).bus = s.bus := rfl

/-! ### memWrite -/

@[simp] theorem memWrite_a (addr : Word) (v : Byte) (s : State) : (memWrite addr v s).a = s.a := rfl
@[simp] theorem memWrite_b (addr : Word) (v : Byte) (s : State) : (memWrite addr v s).b = s.b := rfl
@[simp] theorem memWrite_c (addr : Word) (v : Byte) (s : State) : (memWrite addr v s).c = s.c := rfl
@[simp] theorem memWrite_d (addr : Word) (v : Byte) (s : State) : (memWrite addr v s).d = s.d := rfl
@[simp] theorem memWrite_e (addr : Word) (v : Byte) (s : State) : (memWrite addr v s).e = s.e := rfl
@[simp] theorem memWrite_h (addr : Word) (v : Byte) (s : State) : (memWrite addr v s).h = s.h := rfl
@[simp] theorem memWrite_l (addr : Word) (v : Byte) (s : State) : (memWrite addr v s).l = s.l := rfl
@[simp] theorem memWrite_f (addr : Word) (v : Byte) (s : State) : (memWrite addr v s).f = s.f := rfl
@[simp] theorem memWrite_pc (addr : Word) (v : Byte) (s : State) : (memWrite addr v s).pc = s.pc := rfl
@[simp] theorem memWrite_sp (addr : Word) (v : Byte) (s : State) : (memWrite addr v s).sp = s.sp := rfl
@[simp] theorem memWrite_halted (addr : Word) (v : Byte) (s : State) : (memWrite addr v s).halted = s.halted := rfl
@[simp] theorem memWrite_inte (addr : Word) (v : Byte) (s : State) : (memWrite addr v s).inte = s.inte := rfl
@[simp] theorem memWrite_mem (addr : Word) (v : Byte) (s : State) : (memWrite addr v s).mem = s.mem.write addr.toNat v := rfl
@[simp] theorem memWrite_cycles (addr : Word) (v : Byte) (s : State) : (memWrite addr v s).cycles = s.cycles := rfl
@[simp] theorem memWrite_portLog (addr : Word) (v : Byte) (s : State) : (memWrite addr v s).portLog = s.portLog := rfl
@[simp] theorem memWrite_bus (addr : Word) (v : Byte) (s : State) : (memWrite addr v s).bus = s.bus := rfl

/-! ### busRead -/

@[simp] theorem busRead_fst (addr : Word) (s : State) : (busRead addr s).1 = memRead s addr := rfl
@[simp] theorem busRead_snd (addr : Word) (s : State) :
    (busRead addr s).2 = { s with bus := s.bus ++ [.memRead addr (memRead s addr)] } := rfl

/-! ### busWrite -/

@[simp] theorem busWrite_a (addr : Word) (v : Byte) (s : State) : (busWrite addr v s).a = s.a := rfl
@[simp] theorem busWrite_b (addr : Word) (v : Byte) (s : State) : (busWrite addr v s).b = s.b := rfl
@[simp] theorem busWrite_c (addr : Word) (v : Byte) (s : State) : (busWrite addr v s).c = s.c := rfl
@[simp] theorem busWrite_d (addr : Word) (v : Byte) (s : State) : (busWrite addr v s).d = s.d := rfl
@[simp] theorem busWrite_e (addr : Word) (v : Byte) (s : State) : (busWrite addr v s).e = s.e := rfl
@[simp] theorem busWrite_h (addr : Word) (v : Byte) (s : State) : (busWrite addr v s).h = s.h := rfl
@[simp] theorem busWrite_l (addr : Word) (v : Byte) (s : State) : (busWrite addr v s).l = s.l := rfl
@[simp] theorem busWrite_f (addr : Word) (v : Byte) (s : State) : (busWrite addr v s).f = s.f := rfl
@[simp] theorem busWrite_pc (addr : Word) (v : Byte) (s : State) : (busWrite addr v s).pc = s.pc := rfl
@[simp] theorem busWrite_sp (addr : Word) (v : Byte) (s : State) : (busWrite addr v s).sp = s.sp := rfl
@[simp] theorem busWrite_halted (addr : Word) (v : Byte) (s : State) : (busWrite addr v s).halted = s.halted := rfl
@[simp] theorem busWrite_inte (addr : Word) (v : Byte) (s : State) : (busWrite addr v s).inte = s.inte := rfl
@[simp] theorem busWrite_mem (addr : Word) (v : Byte) (s : State) : (busWrite addr v s).mem = s.mem.write addr.toNat v := rfl
@[simp] theorem busWrite_cycles (addr : Word) (v : Byte) (s : State) : (busWrite addr v s).cycles = s.cycles := rfl
@[simp] theorem busWrite_portLog (addr : Word) (v : Byte) (s : State) : (busWrite addr v s).portLog = s.portLog := rfl
@[simp] theorem busWrite_bus (addr : Word) (v : Byte) (s : State) : (busWrite addr v s).bus = s.bus ++ [.memWrite addr v] := rfl

/-! ### busWriteWord -/

@[simp] theorem busWriteWord_a (addr w : Word) (s : State) : (busWriteWord addr w s).a = s.a := rfl
@[simp] theorem busWriteWord_b (addr w : Word) (s : State) : (busWriteWord addr w s).b = s.b := rfl
@[simp] theorem busWriteWord_c (addr w : Word) (s : State) : (busWriteWord addr w s).c = s.c := rfl
@[simp] theorem busWriteWord_d (addr w : Word) (s : State) : (busWriteWord addr w s).d = s.d := rfl
@[simp] theorem busWriteWord_e (addr w : Word) (s : State) : (busWriteWord addr w s).e = s.e := rfl
@[simp] theorem busWriteWord_h (addr w : Word) (s : State) : (busWriteWord addr w s).h = s.h := rfl
@[simp] theorem busWriteWord_l (addr w : Word) (s : State) : (busWriteWord addr w s).l = s.l := rfl
@[simp] theorem busWriteWord_f (addr w : Word) (s : State) : (busWriteWord addr w s).f = s.f := rfl
@[simp] theorem busWriteWord_pc (addr w : Word) (s : State) : (busWriteWord addr w s).pc = s.pc := rfl
@[simp] theorem busWriteWord_sp (addr w : Word) (s : State) : (busWriteWord addr w s).sp = s.sp := rfl
@[simp] theorem busWriteWord_halted (addr w : Word) (s : State) : (busWriteWord addr w s).halted = s.halted := rfl
@[simp] theorem busWriteWord_inte (addr w : Word) (s : State) : (busWriteWord addr w s).inte = s.inte := rfl
@[simp] theorem busWriteWord_mem (addr w : Word) (s : State) : (busWriteWord addr w s).mem = (s.mem.write addr.toNat (loByte w)).write (addr + 1).toNat (hiByte w) := rfl
@[simp] theorem busWriteWord_cycles (addr w : Word) (s : State) : (busWriteWord addr w s).cycles = s.cycles := rfl
@[simp] theorem busWriteWord_portLog (addr w : Word) (s : State) : (busWriteWord addr w s).portLog = s.portLog := rfl
@[simp] theorem busWriteWord_bus (addr w : Word) (s : State) : (busWriteWord addr w s).bus = s.bus ++ [.memWrite addr (loByte w), .memWrite (addr + 1) (hiByte w)] := List.append_assoc ..

/-! ### setBc -/

@[simp] theorem setBc_a (w : Word) (s : State) : (setBc w s).a = s.a := rfl
@[simp] theorem setBc_b (w : Word) (s : State) : (setBc w s).b = hiByte w := rfl
@[simp] theorem setBc_c (w : Word) (s : State) : (setBc w s).c = loByte w := rfl
@[simp] theorem setBc_d (w : Word) (s : State) : (setBc w s).d = s.d := rfl
@[simp] theorem setBc_e (w : Word) (s : State) : (setBc w s).e = s.e := rfl
@[simp] theorem setBc_h (w : Word) (s : State) : (setBc w s).h = s.h := rfl
@[simp] theorem setBc_l (w : Word) (s : State) : (setBc w s).l = s.l := rfl
@[simp] theorem setBc_f (w : Word) (s : State) : (setBc w s).f = s.f := rfl
@[simp] theorem setBc_pc (w : Word) (s : State) : (setBc w s).pc = s.pc := rfl
@[simp] theorem setBc_sp (w : Word) (s : State) : (setBc w s).sp = s.sp := rfl
@[simp] theorem setBc_halted (w : Word) (s : State) : (setBc w s).halted = s.halted := rfl
@[simp] theorem setBc_inte (w : Word) (s : State) : (setBc w s).inte = s.inte := rfl
@[simp] theorem setBc_mem (w : Word) (s : State) : (setBc w s).mem = s.mem := rfl
@[simp] theorem setBc_cycles (w : Word) (s : State) : (setBc w s).cycles = s.cycles := rfl
@[simp] theorem setBc_portLog (w : Word) (s : State) : (setBc w s).portLog = s.portLog := rfl
@[simp] theorem setBc_bus (w : Word) (s : State) : (setBc w s).bus = s.bus := rfl

/-! ### setDe -/

@[simp] theorem setDe_a (w : Word) (s : State) : (setDe w s).a = s.a := rfl
@[simp] theorem setDe_b (w : Word) (s : State) : (setDe w s).b = s.b := rfl
@[simp] theorem setDe_c (w : Word) (s : State) : (setDe w s).c = s.c := rfl
@[simp] theorem setDe_d (w : Word) (s : State) : (setDe w s).d = hiByte w := rfl
@[simp] theorem setDe_e (w : Word) (s : State) : (setDe w s).e = loByte w := rfl
@[simp] theorem setDe_h (w : Word) (s : State) : (setDe w s).h = s.h := rfl
@[simp] theorem setDe_l (w : Word) (s : State) : (setDe w s).l = s.l := rfl
@[simp] theorem setDe_f (w : Word) (s : State) : (setDe w s).f = s.f := rfl
@[simp] theorem setDe_pc (w : Word) (s : State) : (setDe w s).pc = s.pc := rfl
@[simp] theorem setDe_sp (w : Word) (s : State) : (setDe w s).sp = s.sp := rfl
@[simp] theorem setDe_halted (w : Word) (s : State) : (setDe w s).halted = s.halted := rfl
@[simp] theorem setDe_inte (w : Word) (s : State) : (setDe w s).inte = s.inte := rfl
@[simp] theorem setDe_mem (w : Word) (s : State) : (setDe w s).mem = s.mem := rfl
@[simp] theorem setDe_cycles (w : Word) (s : State) : (setDe w s).cycles = s.cycles := rfl
@[simp] theorem setDe_portLog (w : Word) (s : State) : (setDe w s).portLog = s.portLog := rfl
@[simp] theorem setDe_bus (w : Word) (s : State) : (setDe w s).bus = s.bus := rfl

/-! ### setHl -/

@[simp] theorem setHl_a (w : Word) (s : State) : (setHl w s).a = s.a := rfl
@[simp] theorem setHl_b (w : Word) (s : State) : (setHl w s).b = s.b := rfl
@[simp] theorem setHl_c (w : Word) (s : State) : (setHl w s).c = s.c := rfl
@[simp] theorem setHl_d (w : Word) (s : State) : (setHl w s).d = s.d := rfl
@[simp] theorem setHl_e (w : Word) (s : State) : (setHl w s).e = s.e := rfl
@[simp] theorem setHl_h (w : Word) (s : State) : (setHl w s).h = hiByte w := rfl
@[simp] theorem setHl_l (w : Word) (s : State) : (setHl w s).l = loByte w := rfl
@[simp] theorem setHl_f (w : Word) (s : State) : (setHl w s).f = s.f := rfl
@[simp] theorem setHl_pc (w : Word) (s : State) : (setHl w s).pc = s.pc := rfl
@[simp] theorem setHl_sp (w : Word) (s : State) : (setHl w s).sp = s.sp := rfl
@[simp] theorem setHl_halted (w : Word) (s : State) : (setHl w s).halted = s.halted := rfl
@[simp] theorem setHl_inte (w : Word) (s : State) : (setHl w s).inte = s.inte := rfl
@[simp] theorem setHl_mem (w : Word) (s : State) : (setHl w s).mem = s.mem := rfl
@[simp] theorem setHl_cycles (w : Word) (s : State) : (setHl w s).cycles = s.cycles := rfl
@[simp] theorem setHl_portLog (w : Word) (s : State) : (setHl w s).portLog = s.portLog := rfl
@[simp] theorem setHl_bus (w : Word) (s : State) : (setHl w s).bus = s.bus := rfl

/-! ### setPsw -/

@[simp] theorem setPsw_a (w : Word) (s : State) : (setPsw w s).a = hiByte w := rfl
@[simp] theorem setPsw_b (w : Word) (s : State) : (setPsw w s).b = s.b := rfl
@[simp] theorem setPsw_c (w : Word) (s : State) : (setPsw w s).c = s.c := rfl
@[simp] theorem setPsw_d (w : Word) (s : State) : (setPsw w s).d = s.d := rfl
@[simp] theorem setPsw_e (w : Word) (s : State) : (setPsw w s).e = s.e := rfl
@[simp] theorem setPsw_h (w : Word) (s : State) : (setPsw w s).h = s.h := rfl
@[simp] theorem setPsw_l (w : Word) (s : State) : (setPsw w s).l = s.l := rfl
@[simp] theorem setPsw_f (w : Word) (s : State) : (setPsw w s).f = loadFlags (loByte w) := rfl
@[simp] theorem setPsw_pc (w : Word) (s : State) : (setPsw w s).pc = s.pc := rfl
@[simp] theorem setPsw_sp (w : Word) (s : State) : (setPsw w s).sp = s.sp := rfl
@[simp] theorem setPsw_halted (w : Word) (s : State) : (setPsw w s).halted = s.halted := rfl
@[simp] theorem setPsw_inte (w : Word) (s : State) : (setPsw w s).inte = s.inte := rfl
@[simp] theorem setPsw_mem (w : Word) (s : State) : (setPsw w s).mem = s.mem := rfl
@[simp] theorem setPsw_cycles (w : Word) (s : State) : (setPsw w s).cycles = s.cycles := rfl
@[simp] theorem setPsw_portLog (w : Word) (s : State) : (setPsw w s).portLog = s.portLog := rfl
@[simp] theorem setPsw_bus (w : Word) (s : State) : (setPsw w s).bus = s.bus := rfl

/-! ### setAccFlags -/

@[simp] theorem setAccFlags_a (r : Byte × Byte) (s : State) : (setAccFlags r s).a = r.1 := rfl
@[simp] theorem setAccFlags_b (r : Byte × Byte) (s : State) : (setAccFlags r s).b = s.b := rfl
@[simp] theorem setAccFlags_c (r : Byte × Byte) (s : State) : (setAccFlags r s).c = s.c := rfl
@[simp] theorem setAccFlags_d (r : Byte × Byte) (s : State) : (setAccFlags r s).d = s.d := rfl
@[simp] theorem setAccFlags_e (r : Byte × Byte) (s : State) : (setAccFlags r s).e = s.e := rfl
@[simp] theorem setAccFlags_h (r : Byte × Byte) (s : State) : (setAccFlags r s).h = s.h := rfl
@[simp] theorem setAccFlags_l (r : Byte × Byte) (s : State) : (setAccFlags r s).l = s.l := rfl
@[simp] theorem setAccFlags_f (r : Byte × Byte) (s : State) : (setAccFlags r s).f = r.2 := rfl
@[simp] theorem setAccFlags_pc (r : Byte × Byte) (s : State) : (setAccFlags r s).pc = s.pc := rfl
@[simp] theorem setAccFlags_sp (r : Byte × Byte) (s : State) : (setAccFlags r s).sp = s.sp := rfl
@[simp] theorem setAccFlags_halted (r : Byte × Byte) (s : State) : (setAccFlags r s).halted = s.halted := rfl
@[simp] theorem setAccFlags_inte (r : Byte × Byte) (s : State) : (setAccFlags r s).inte = s.inte := rfl
@[simp] theorem setAccFlags_mem (r : Byte × Byte) (s : State) : (setAccFlags r s).mem = s.mem := rfl
@[simp] theorem setAccFlags_cycles (r : Byte × Byte) (s : State) : (setAccFlags r s).cycles = s.cycles := rfl
@[simp] theorem setAccFlags_portLog (r : Byte × Byte) (s : State) : (setAccFlags r s).portLog = s.portLog := rfl
@[simp] theorem setAccFlags_bus (r : Byte × Byte) (s : State) : (setAccFlags r s).bus = s.bus := rfl

/-! ### push16 -/

@[simp] theorem push16_a (w : Word) (s : State) : (push16 w s).a = s.a := rfl
@[simp] theorem push16_b (w : Word) (s : State) : (push16 w s).b = s.b := rfl
@[simp] theorem push16_c (w : Word) (s : State) : (push16 w s).c = s.c := rfl
@[simp] theorem push16_d (w : Word) (s : State) : (push16 w s).d = s.d := rfl
@[simp] theorem push16_e (w : Word) (s : State) : (push16 w s).e = s.e := rfl
@[simp] theorem push16_h (w : Word) (s : State) : (push16 w s).h = s.h := rfl
@[simp] theorem push16_l (w : Word) (s : State) : (push16 w s).l = s.l := rfl
@[simp] theorem push16_f (w : Word) (s : State) : (push16 w s).f = s.f := rfl
@[simp] theorem push16_pc (w : Word) (s : State) : (push16 w s).pc = s.pc := rfl
@[simp] theorem push16_sp (w : Word) (s : State) : (push16 w s).sp = s.sp - 2 := rfl
@[simp] theorem push16_halted (w : Word) (s : State) : (push16 w s).halted = s.halted := rfl
@[simp] theorem push16_inte (w : Word) (s : State) : (push16 w s).inte = s.inte := rfl
@[simp] theorem push16_mem (w : Word) (s : State) : (push16 w s).mem = (s.mem.write (s.sp - 2).toNat (loByte w)).write (s.sp - 2 + 1).toNat (hiByte w) := rfl
@[simp] theorem push16_cycles (w : Word) (s : State) : (push16 w s).cycles = s.cycles := rfl
@[simp] theorem push16_portLog (w : Word) (s : State) : (push16 w s).portLog = s.portLog := rfl
@[simp] theorem push16_bus (w : Word) (s : State) : (push16 w s).bus =
    s.bus ++ [.memWrite (s.sp - 2) (loByte w), .memWrite (s.sp - 2 + 1) (hiByte w)] :=
  List.append_assoc ..

/-! ### callTo -/

@[simp] theorem callTo_a (target : Word) (s : State) : (callTo target s).a = s.a := by simp [callTo]
@[simp] theorem callTo_b (target : Word) (s : State) : (callTo target s).b = s.b := by simp [callTo]
@[simp] theorem callTo_c (target : Word) (s : State) : (callTo target s).c = s.c := by simp [callTo]
@[simp] theorem callTo_d (target : Word) (s : State) : (callTo target s).d = s.d := by simp [callTo]
@[simp] theorem callTo_e (target : Word) (s : State) : (callTo target s).e = s.e := by simp [callTo]
@[simp] theorem callTo_h (target : Word) (s : State) : (callTo target s).h = s.h := by simp [callTo]
@[simp] theorem callTo_l (target : Word) (s : State) : (callTo target s).l = s.l := by simp [callTo]
@[simp] theorem callTo_f (target : Word) (s : State) : (callTo target s).f = s.f := by simp [callTo]
@[simp] theorem callTo_pc (target : Word) (s : State) : (callTo target s).pc = target := by simp [callTo]
@[simp] theorem callTo_sp (target : Word) (s : State) : (callTo target s).sp = s.sp - 2 := by simp [callTo]
@[simp] theorem callTo_halted (target : Word) (s : State) : (callTo target s).halted = s.halted := by simp [callTo]
@[simp] theorem callTo_inte (target : Word) (s : State) : (callTo target s).inte = s.inte := by simp [callTo]
@[simp] theorem callTo_mem (target : Word) (s : State) : (callTo target s).mem = (push16 s.pc s).mem := rfl
@[simp] theorem callTo_cycles (target : Word) (s : State) : (callTo target s).cycles = s.cycles := by simp [callTo]
@[simp] theorem callTo_portLog (target : Word) (s : State) : (callTo target s).portLog = s.portLog := by simp [callTo]
@[simp] theorem callTo_bus (target : Word) (s : State) : (callTo target s).bus = (push16 s.pc s).bus := rfl

/-! ### presentPort -/

@[simp] theorem presentPort_a (access : PortAccess) (s : State) : (presentPort access s).a = s.a := rfl
@[simp] theorem presentPort_b (access : PortAccess) (s : State) : (presentPort access s).b = s.b := rfl
@[simp] theorem presentPort_c (access : PortAccess) (s : State) : (presentPort access s).c = s.c := rfl
@[simp] theorem presentPort_d (access : PortAccess) (s : State) : (presentPort access s).d = s.d := rfl
@[simp] theorem presentPort_e (access : PortAccess) (s : State) : (presentPort access s).e = s.e := rfl
@[simp] theorem presentPort_h (access : PortAccess) (s : State) : (presentPort access s).h = s.h := rfl
@[simp] theorem presentPort_l (access : PortAccess) (s : State) : (presentPort access s).l = s.l := rfl
@[simp] theorem presentPort_f (access : PortAccess) (s : State) : (presentPort access s).f = s.f := rfl
@[simp] theorem presentPort_pc (access : PortAccess) (s : State) : (presentPort access s).pc = s.pc := rfl
@[simp] theorem presentPort_sp (access : PortAccess) (s : State) : (presentPort access s).sp = s.sp := rfl
@[simp] theorem presentPort_halted (access : PortAccess) (s : State) : (presentPort access s).halted = s.halted := rfl
@[simp] theorem presentPort_inte (access : PortAccess) (s : State) : (presentPort access s).inte = s.inte := rfl
@[simp] theorem presentPort_mem (access : PortAccess) (s : State) : (presentPort access s).mem = s.mem := rfl
@[simp] theorem presentPort_cycles (access : PortAccess) (s : State) : (presentPort access s).cycles = s.cycles := rfl
@[simp] theorem presentPort_portLog (access : PortAccess) (s : State) : (presentPort access s).portLog = s.portLog ++ [access] := rfl
@[simp] theorem presentPort_bus (access : PortAccess) (s : State) : (presentPort access s).bus = s.bus ++ [.port access] := rfl

/-! ### beginStep -/

@[simp] theorem beginStep_a (s : State) : (beginStep s).a = s.a := rfl
@[simp] theorem beginStep_b (s : State) : (beginStep s).b = s.b := rfl
@[simp] theorem beginStep_c (s : State) : (beginStep s).c = s.c := rfl
@[simp] theorem beginStep_d (s : State) : (beginStep s).d = s.d := rfl
@[simp] theorem beginStep_e (s : State) : (beginStep s).e = s.e := rfl
@[simp] theorem beginStep_h (s : State) : (beginStep s).h = s.h := rfl
@[simp] theorem beginStep_l (s : State) : (beginStep s).l = s.l := rfl
@[simp] theorem beginStep_f (s : State) : (beginStep s).f = s.f := rfl
@[simp] theorem beginStep_pc (s : State) : (beginStep s).pc = s.pc := rfl
@[simp] theorem beginStep_sp (s : State) : (beginStep s).sp = s.sp := rfl
@[simp] theorem beginStep_halted (s : State) : (beginStep s).halted = s.halted := rfl
@[simp] theorem beginStep_inte (s : State) : (beginStep s).inte = s.inte := rfl
@[simp] theorem beginStep_mem (s : State) : (beginStep s).mem = s.mem := rfl
@[simp] theorem beginStep_cycles (s : State) : (beginStep s).cycles = s.cycles := rfl
@[simp] theorem beginStep_portLog (s : State) : (beginStep s).portLog = s.portLog := rfl
@[simp] theorem beginStep_bus (s : State) : (beginStep s).bus = [] := rfl

/-! ### setA -/

@[simp] theorem setA_a (r : Byte × State) : (setA r).a = r.1 := rfl
@[simp] theorem setA_b (r : Byte × State) : (setA r).b = r.2.b := rfl
@[simp] theorem setA_c (r : Byte × State) : (setA r).c = r.2.c := rfl
@[simp] theorem setA_d (r : Byte × State) : (setA r).d = r.2.d := rfl
@[simp] theorem setA_e (r : Byte × State) : (setA r).e = r.2.e := rfl
@[simp] theorem setA_h (r : Byte × State) : (setA r).h = r.2.h := rfl
@[simp] theorem setA_l (r : Byte × State) : (setA r).l = r.2.l := rfl
@[simp] theorem setA_f (r : Byte × State) : (setA r).f = r.2.f := rfl
@[simp] theorem setA_pc (r : Byte × State) : (setA r).pc = r.2.pc := rfl
@[simp] theorem setA_sp (r : Byte × State) : (setA r).sp = r.2.sp := rfl
@[simp] theorem setA_halted (r : Byte × State) : (setA r).halted = r.2.halted := rfl
@[simp] theorem setA_inte (r : Byte × State) : (setA r).inte = r.2.inte := rfl
@[simp] theorem setA_mem (r : Byte × State) : (setA r).mem = r.2.mem := rfl
@[simp] theorem setA_cycles (r : Byte × State) : (setA r).cycles = r.2.cycles := rfl
@[simp] theorem setA_portLog (r : Byte × State) : (setA r).portLog = r.2.portLog := rfl
@[simp] theorem setA_bus (r : Byte × State) : (setA r).bus = r.2.bus := rfl

/-! ### returnFrom -/

@[simp] theorem returnFrom_a (s : State) : (returnFrom s).a = s.a := by
  simp [returnFrom, pop16, busReadWord]
@[simp] theorem returnFrom_b (s : State) : (returnFrom s).b = s.b := by
  simp [returnFrom, pop16, busReadWord]
@[simp] theorem returnFrom_c (s : State) : (returnFrom s).c = s.c := by
  simp [returnFrom, pop16, busReadWord]
@[simp] theorem returnFrom_d (s : State) : (returnFrom s).d = s.d := by
  simp [returnFrom, pop16, busReadWord]
@[simp] theorem returnFrom_e (s : State) : (returnFrom s).e = s.e := by
  simp [returnFrom, pop16, busReadWord]
@[simp] theorem returnFrom_h (s : State) : (returnFrom s).h = s.h := by
  simp [returnFrom, pop16, busReadWord]
@[simp] theorem returnFrom_l (s : State) : (returnFrom s).l = s.l := by
  simp [returnFrom, pop16, busReadWord]
@[simp] theorem returnFrom_f (s : State) : (returnFrom s).f = s.f := by
  simp [returnFrom, pop16, busReadWord]
@[simp] theorem returnFrom_sp (s : State) : (returnFrom s).sp = s.sp + 2 := by
  simp [returnFrom, pop16, busReadWord]
@[simp] theorem returnFrom_halted (s : State) : (returnFrom s).halted = s.halted := by
  simp [returnFrom, pop16, busReadWord]
@[simp] theorem returnFrom_inte (s : State) : (returnFrom s).inte = s.inte := by
  simp [returnFrom, pop16, busReadWord]
@[simp] theorem returnFrom_mem (s : State) : (returnFrom s).mem = s.mem := by
  simp [returnFrom, pop16, busReadWord]
@[simp] theorem returnFrom_cycles (s : State) : (returnFrom s).cycles = s.cycles := by
  simp [returnFrom, pop16, busReadWord]
@[simp] theorem returnFrom_portLog (s : State) : (returnFrom s).portLog = s.portLog := by
  simp [returnFrom, pop16, busReadWord]

/-! ### writeRp: the pair named, or SP, and nothing else -/

@[simp] theorem writeRp_a (p : Rp) (w : Word) (s : State) : (writeRp p w s).a = s.a := by
  cases p <;> rfl
@[simp] theorem writeRp_f (p : Rp) (w : Word) (s : State) : (writeRp p w s).f = s.f := by
  cases p <;> rfl
@[simp] theorem writeRp_pc (p : Rp) (w : Word) (s : State) : (writeRp p w s).pc = s.pc := by
  cases p <;> rfl
@[simp] theorem writeRp_halted (p : Rp) (w : Word) (s : State) : (writeRp p w s).halted = s.halted := by
  cases p <;> rfl
@[simp] theorem writeRp_inte (p : Rp) (w : Word) (s : State) : (writeRp p w s).inte = s.inte := by
  cases p <;> rfl
@[simp] theorem writeRp_mem (p : Rp) (w : Word) (s : State) : (writeRp p w s).mem = s.mem := by
  cases p <;> rfl
@[simp] theorem writeRp_cycles (p : Rp) (w : Word) (s : State) : (writeRp p w s).cycles = s.cycles := by
  cases p <;> rfl
@[simp] theorem writeRp_portLog (p : Rp) (w : Word) (s : State) : (writeRp p w s).portLog = s.portLog := by
  cases p <;> rfl
@[simp] theorem writeRp_bus (p : Rp) (w : Word) (s : State) : (writeRp p w s).bus = s.bus := by
  cases p <;> rfl

/-! ### writeStackPair: the pair named and nothing else -/

@[simp] theorem writeStackPair_pc (p : StackPair) (w : Word) (s : State) : (writeStackPair p w s).pc = s.pc := by
  cases p <;> rfl
@[simp] theorem writeStackPair_sp (p : StackPair) (w : Word) (s : State) : (writeStackPair p w s).sp = s.sp := by
  cases p <;> rfl
@[simp] theorem writeStackPair_halted (p : StackPair) (w : Word) (s : State) : (writeStackPair p w s).halted = s.halted := by
  cases p <;> rfl
@[simp] theorem writeStackPair_inte (p : StackPair) (w : Word) (s : State) : (writeStackPair p w s).inte = s.inte := by
  cases p <;> rfl
@[simp] theorem writeStackPair_mem (p : StackPair) (w : Word) (s : State) : (writeStackPair p w s).mem = s.mem := by
  cases p <;> rfl
@[simp] theorem writeStackPair_cycles (p : StackPair) (w : Word) (s : State) : (writeStackPair p w s).cycles = s.cycles := by
  cases p <;> rfl
@[simp] theorem writeStackPair_portLog (p : StackPair) (w : Word) (s : State) : (writeStackPair p w s).portLog = s.portLog := by
  cases p <;> rfl
@[simp] theorem writeStackPair_bus (p : StackPair) (w : Word) (s : State) : (writeStackPair p w s).bus = s.bus := by
  cases p <;> rfl

/-! ### jumpIf: PC and the count -/

@[simp] theorem jumpIf_a (k : Cond) (target : Word) (s : State) : (jumpIf k target s).a = s.a := by
  unfold jumpIf; split <;> simp
@[simp] theorem jumpIf_b (k : Cond) (target : Word) (s : State) : (jumpIf k target s).b = s.b := by
  unfold jumpIf; split <;> simp
@[simp] theorem jumpIf_c (k : Cond) (target : Word) (s : State) : (jumpIf k target s).c = s.c := by
  unfold jumpIf; split <;> simp
@[simp] theorem jumpIf_d (k : Cond) (target : Word) (s : State) : (jumpIf k target s).d = s.d := by
  unfold jumpIf; split <;> simp
@[simp] theorem jumpIf_e (k : Cond) (target : Word) (s : State) : (jumpIf k target s).e = s.e := by
  unfold jumpIf; split <;> simp
@[simp] theorem jumpIf_h (k : Cond) (target : Word) (s : State) : (jumpIf k target s).h = s.h := by
  unfold jumpIf; split <;> simp
@[simp] theorem jumpIf_l (k : Cond) (target : Word) (s : State) : (jumpIf k target s).l = s.l := by
  unfold jumpIf; split <;> simp
@[simp] theorem jumpIf_f (k : Cond) (target : Word) (s : State) : (jumpIf k target s).f = s.f := by
  unfold jumpIf; split <;> simp
@[simp] theorem jumpIf_sp (k : Cond) (target : Word) (s : State) : (jumpIf k target s).sp = s.sp := by
  unfold jumpIf; split <;> simp
@[simp] theorem jumpIf_halted (k : Cond) (target : Word) (s : State) : (jumpIf k target s).halted = s.halted := by
  unfold jumpIf; split <;> simp
@[simp] theorem jumpIf_inte (k : Cond) (target : Word) (s : State) : (jumpIf k target s).inte = s.inte := by
  unfold jumpIf; split <;> simp
@[simp] theorem jumpIf_mem (k : Cond) (target : Word) (s : State) : (jumpIf k target s).mem = s.mem := by
  unfold jumpIf; split <;> simp
@[simp] theorem jumpIf_cycles (k : Cond) (target : Word) (s : State) : (jumpIf k target s).cycles = 10 := by
  unfold jumpIf; split <;> simp
@[simp] theorem jumpIf_portLog (k : Cond) (target : Word) (s : State) : (jumpIf k target s).portLog = s.portLog := by
  unfold jumpIf; split <;> simp
@[simp] theorem jumpIf_bus (k : Cond) (target : Word) (s : State) : (jumpIf k target s).bus = s.bus := by
  unfold jumpIf; split <;> simp

/-! ### callIf: all but PC, SP, memory, the transactions and the count -/

@[simp] theorem callIf_a (k : Cond) (target : Word) (s : State) : (callIf k target s).a = s.a := by
  unfold callIf; split <;> simp
@[simp] theorem callIf_b (k : Cond) (target : Word) (s : State) : (callIf k target s).b = s.b := by
  unfold callIf; split <;> simp
@[simp] theorem callIf_c (k : Cond) (target : Word) (s : State) : (callIf k target s).c = s.c := by
  unfold callIf; split <;> simp
@[simp] theorem callIf_d (k : Cond) (target : Word) (s : State) : (callIf k target s).d = s.d := by
  unfold callIf; split <;> simp
@[simp] theorem callIf_e (k : Cond) (target : Word) (s : State) : (callIf k target s).e = s.e := by
  unfold callIf; split <;> simp
@[simp] theorem callIf_h (k : Cond) (target : Word) (s : State) : (callIf k target s).h = s.h := by
  unfold callIf; split <;> simp
@[simp] theorem callIf_l (k : Cond) (target : Word) (s : State) : (callIf k target s).l = s.l := by
  unfold callIf; split <;> simp
@[simp] theorem callIf_f (k : Cond) (target : Word) (s : State) : (callIf k target s).f = s.f := by
  unfold callIf; split <;> simp
@[simp] theorem callIf_halted (k : Cond) (target : Word) (s : State) : (callIf k target s).halted = s.halted := by
  unfold callIf; split <;> simp
@[simp] theorem callIf_inte (k : Cond) (target : Word) (s : State) : (callIf k target s).inte = s.inte := by
  unfold callIf; split <;> simp
@[simp] theorem callIf_portLog (k : Cond) (target : Word) (s : State) : (callIf k target s).portLog = s.portLog := by
  unfold callIf; split <;> simp

/-! ### returnIf: all but PC, SP, the transactions and the count -/

@[simp] theorem returnIf_a (k : Cond) (s : State) : (returnIf k s).a = s.a := by
  unfold returnIf; split <;> simp
@[simp] theorem returnIf_b (k : Cond) (s : State) : (returnIf k s).b = s.b := by
  unfold returnIf; split <;> simp
@[simp] theorem returnIf_c (k : Cond) (s : State) : (returnIf k s).c = s.c := by
  unfold returnIf; split <;> simp
@[simp] theorem returnIf_d (k : Cond) (s : State) : (returnIf k s).d = s.d := by
  unfold returnIf; split <;> simp
@[simp] theorem returnIf_e (k : Cond) (s : State) : (returnIf k s).e = s.e := by
  unfold returnIf; split <;> simp
@[simp] theorem returnIf_h (k : Cond) (s : State) : (returnIf k s).h = s.h := by
  unfold returnIf; split <;> simp
@[simp] theorem returnIf_l (k : Cond) (s : State) : (returnIf k s).l = s.l := by
  unfold returnIf; split <;> simp
@[simp] theorem returnIf_f (k : Cond) (s : State) : (returnIf k s).f = s.f := by
  unfold returnIf; split <;> simp
@[simp] theorem returnIf_halted (k : Cond) (s : State) : (returnIf k s).halted = s.halted := by
  unfold returnIf; split <;> simp
@[simp] theorem returnIf_inte (k : Cond) (s : State) : (returnIf k s).inte = s.inte := by
  unfold returnIf; split <;> simp
@[simp] theorem returnIf_mem (k : Cond) (s : State) : (returnIf k s).mem = s.mem := by
  unfold returnIf; split <;> simp
@[simp] theorem returnIf_portLog (k : Cond) (s : State) : (returnIf k s).portLog = s.portLog := by
  unfold returnIf; split <;> simp

/-! ### portRead: the two records and nothing else -/

@[simp] theorem portRead_a (p : Byte) (s : State) : ((portRead p s).2).a = s.a := by
  unfold portRead portReadWith; split <;> simp
@[simp] theorem portRead_b (p : Byte) (s : State) : ((portRead p s).2).b = s.b := by
  unfold portRead portReadWith; split <;> simp
@[simp] theorem portRead_c (p : Byte) (s : State) : ((portRead p s).2).c = s.c := by
  unfold portRead portReadWith; split <;> simp
@[simp] theorem portRead_d (p : Byte) (s : State) : ((portRead p s).2).d = s.d := by
  unfold portRead portReadWith; split <;> simp
@[simp] theorem portRead_e (p : Byte) (s : State) : ((portRead p s).2).e = s.e := by
  unfold portRead portReadWith; split <;> simp
@[simp] theorem portRead_h (p : Byte) (s : State) : ((portRead p s).2).h = s.h := by
  unfold portRead portReadWith; split <;> simp
@[simp] theorem portRead_l (p : Byte) (s : State) : ((portRead p s).2).l = s.l := by
  unfold portRead portReadWith; split <;> simp
@[simp] theorem portRead_f (p : Byte) (s : State) : ((portRead p s).2).f = s.f := by
  unfold portRead portReadWith; split <;> simp
@[simp] theorem portRead_pc (p : Byte) (s : State) : ((portRead p s).2).pc = s.pc := by
  unfold portRead portReadWith; split <;> simp
@[simp] theorem portRead_sp (p : Byte) (s : State) : ((portRead p s).2).sp = s.sp := by
  unfold portRead portReadWith; split <;> simp
@[simp] theorem portRead_halted (p : Byte) (s : State) : ((portRead p s).2).halted = s.halted := by
  unfold portRead portReadWith; split <;> simp
@[simp] theorem portRead_inte (p : Byte) (s : State) : ((portRead p s).2).inte = s.inte := by
  unfold portRead portReadWith; split <;> simp
@[simp] theorem portRead_mem (p : Byte) (s : State) : ((portRead p s).2).mem = s.mem := by
  unfold portRead portReadWith; split <;> simp
@[simp] theorem portRead_cycles (p : Byte) (s : State) : ((portRead p s).2).cycles = s.cycles := by
  unfold portRead portReadWith; split <;> simp

/-! ### portWrite: the two records and nothing else -/

@[simp] theorem portWrite_a (p v : Byte) (s : State) : (portWrite p v s).a = s.a := by
  unfold portWrite portWriteWith; split <;> simp
@[simp] theorem portWrite_b (p v : Byte) (s : State) : (portWrite p v s).b = s.b := by
  unfold portWrite portWriteWith; split <;> simp
@[simp] theorem portWrite_c (p v : Byte) (s : State) : (portWrite p v s).c = s.c := by
  unfold portWrite portWriteWith; split <;> simp
@[simp] theorem portWrite_d (p v : Byte) (s : State) : (portWrite p v s).d = s.d := by
  unfold portWrite portWriteWith; split <;> simp
@[simp] theorem portWrite_e (p v : Byte) (s : State) : (portWrite p v s).e = s.e := by
  unfold portWrite portWriteWith; split <;> simp
@[simp] theorem portWrite_h (p v : Byte) (s : State) : (portWrite p v s).h = s.h := by
  unfold portWrite portWriteWith; split <;> simp
@[simp] theorem portWrite_l (p v : Byte) (s : State) : (portWrite p v s).l = s.l := by
  unfold portWrite portWriteWith; split <;> simp
@[simp] theorem portWrite_f (p v : Byte) (s : State) : (portWrite p v s).f = s.f := by
  unfold portWrite portWriteWith; split <;> simp
@[simp] theorem portWrite_pc (p v : Byte) (s : State) : (portWrite p v s).pc = s.pc := by
  unfold portWrite portWriteWith; split <;> simp
@[simp] theorem portWrite_sp (p v : Byte) (s : State) : (portWrite p v s).sp = s.sp := by
  unfold portWrite portWriteWith; split <;> simp
@[simp] theorem portWrite_halted (p v : Byte) (s : State) : (portWrite p v s).halted = s.halted := by
  unfold portWrite portWriteWith; split <;> simp
@[simp] theorem portWrite_inte (p v : Byte) (s : State) : (portWrite p v s).inte = s.inte := by
  unfold portWrite portWriteWith; split <;> simp
@[simp] theorem portWrite_mem (p v : Byte) (s : State) : (portWrite p v s).mem = s.mem := by
  unfold portWrite portWriteWith; split <;> simp
@[simp] theorem portWrite_cycles (p v : Byte) (s : State) : (portWrite p v s).cycles = s.cycles := by
  unfold portWrite portWriteWith; split <;> simp

end Sys2Proof.Machine
end

