-- ==== Sys2Proof/Laws/Memory.lean ====
section
/-!
SUPPORT. The memory list: what a read gives after a write, and that every memory operation keeps the canonical form.
-/

namespace Sys2Proof.Machine

theorem Memory.read_erase (m : Memory) (a b : Nat) :
    (m.erase a).read b = if b = a then unlistedByte else m.read b := by
  induction m with
  | nil => simp [Memory.erase, Memory.read]
  | cons cell m ih =>
    by_cases h : cell.1 = a
    · simp only [Memory.erase, h, if_pos, ih, Memory.read]
      by_cases hb : b = a
      · simp [hb]
      · simp [hb, Ne.symm hb]
    · simp only [Memory.erase, h, if_false, Memory.read, ih]
      by_cases hb : cell.1 = b
      · have : b ≠ a := fun e => h (hb.trans e)
        simp [hb, this]
      · simp [hb]

theorem Memory.read_insert (m : Memory) (a b : Nat) (v : Byte)
    (absent : ∀ x ∈ m, x.1 ≠ a) :
    (m.insert (a, v)).read b = if b = a then v else m.read b := by
  induction m with
  | nil => simp [Memory.insert, Memory.read, eq_comm]
  | cons cell m ih =>
    have hne : cell.1 ≠ a := absent cell (by simp)
    have ih' := ih fun x hx => absent x (by simp [hx])
    by_cases h : a < cell.1
    · simp [Memory.insert, h, Memory.read, eq_comm]
    · simp only [Memory.insert, h, if_false, Memory.read, ih']
      by_cases hb : cell.1 = b
      · have : b ≠ a := fun e => hne (hb.trans e)
        simp [hb, this]
      · simp [hb]

theorem Memory.erase_absent (m : Memory) (a : Nat) : ∀ x ∈ m.erase a, x.1 ≠ a := by
  induction m with
  | nil => simp [Memory.erase]
  | cons cell m ih =>
    by_cases h : cell.1 = a
    · simpa [Memory.erase, h] using ih
    · simpa [Memory.erase, h] using ih

/-- A read after a write: the byte written, and every other byte as before, whatever the list. -/
theorem Memory.read_write (m : Memory) (a b : Nat) (v : Byte) :
    (m.write a v).read b = if b = a then v else m.read b := by
  unfold Memory.write
  split
  · rename_i h
    rw [Memory.read_erase, h]
  · rw [Memory.read_insert _ _ _ _ (Memory.erase_absent m a), Memory.read_erase]
    by_cases h : b = a <;> simp [h]

/-! ### The canonical form -/

theorem Memory.mem_erase {m : Memory} {a : Nat} {x : Host.Cell} (h : x ∈ m.erase a) : x ∈ m := by
  induction m with
  | nil => simp [Memory.erase] at h
  | cons cell m ih =>
    unfold Memory.erase at h
    split at h
    · exact List.mem_cons_of_mem _ (ih h)
    · rcases List.mem_cons.1 h with h | h
      · simp [h]
      · exact List.mem_cons_of_mem _ (ih h)

theorem Memory.mem_insert {m : Memory} {new x : Host.Cell} (h : x ∈ m.insert new) : x = new ∨ x ∈ m := by
  induction m with
  | nil => simpa [Memory.insert] using h
  | cons cell m ih =>
    unfold Memory.insert at h
    split at h
    · simpa using h
    · rcases List.mem_cons.1 h with h | h
      · simp [h]
      · rcases ih h with h | h
        · exact .inl h
        · simp [h]

theorem Memory.erase_wf {m : Memory} (a : Nat) (h : m.wf) : (m.erase a).wf := by
  refine ⟨?_, fun x hx => h.2 x (Memory.mem_erase hx)⟩
  have hp := h.1
  clear h
  induction m with
  | nil => simp [Memory.erase]
  | cons cell m ih =>
    rw [List.pairwise_cons] at hp
    unfold Memory.erase
    split
    · exact ih hp.2
    · exact List.pairwise_cons.2 ⟨fun x hx => hp.1 x (Memory.mem_erase hx), ih hp.2⟩

theorem Memory.insert_wf {m : Memory} {new : Host.Cell} (h : m.wf) (absent : ∀ x ∈ m, x.1 ≠ new.1)
    (inside : new.1 < 65536) (listed : new.2 ≠ unlistedByte) : (m.insert new).wf := by
  refine ⟨?_, fun x hx => ?_⟩
  · have hp := h.1
    clear h
    induction m with
    | nil => simp [Memory.insert]
    | cons cell m ih =>
      rw [List.pairwise_cons] at hp
      unfold Memory.insert
      split
      · rename_i hlt
        refine List.pairwise_cons.2 ⟨fun x hx => ?_, List.pairwise_cons.2 hp⟩
        rcases List.mem_cons.1 hx with rfl | hx
        · exact hlt
        · exact lt_trans hlt (hp.1 x hx)
      · rename_i hge
        refine List.pairwise_cons.2 ⟨fun x hx => ?_, ih (fun x hx => absent x (by simp [hx])) hp.2⟩
        rcases Memory.mem_insert hx with rfl | hx
        · have := absent cell (by simp)
          omega
        · exact hp.1 x hx
  · rcases Memory.mem_insert hx with rfl | hx
    · exact ⟨inside, listed⟩
    · exact h.2 x hx

theorem Memory.write_wf {m : Memory} {a : Nat} (v : Byte) (h : m.wf) (inside : a < 65536) : (m.write a v).wf := by
  unfold Memory.write
  split
  · exact Memory.erase_wf a h
  · exact Memory.insert_wf (Memory.erase_wf a h) (Memory.erase_absent m a) inside ‹_›

theorem memWrite_wf {s : State} (addr : Word) (v : Byte) (h : s.mem.wf) : (memWrite addr v s).mem.wf :=
  Memory.write_wf v h addr.isLt

theorem busWrite_wf {s : State} (addr : Word) (v : Byte) (h : s.mem.wf) : (busWrite addr v s).mem.wf :=
  memWrite_wf addr v h

theorem busWriteWord_wf {s : State} (addr w : Word) (h : s.mem.wf) : (busWriteWord addr w s).mem.wf :=
  busWrite_wf _ _ (busWrite_wf _ _ h)

theorem push16_wf {s : State} (w : Word) (h : s.mem.wf) : (push16 w s).mem.wf :=
  busWriteWord_wf (s := { s with sp := s.sp - 2 }) _ w h

theorem writeR8_wf {s : State} (r : R8) (v : Byte) (h : s.mem.wf) : (writeR8 r v s).mem.wf := by
  cases r <;> first | exact h | exact memWrite_wf _ _ h

theorem writeOperand_wf {s : State} (r : R8) (v : Byte) (h : s.mem.wf) : (writeOperand r v s).mem.wf := by
  cases r <;> first | exact h | exact busWrite_wf _ _ h

theorem hostLoad_wf {s : State} (addr : Word) (bytes : List Byte) (h : s.mem.wf) :
    (hostLoad addr bytes s).mem.wf := by
  induction bytes generalizing addr s with
  | nil => exact h
  | cons v vs ih => exact ih (addr + 1) (memWrite_wf addr v h)

theorem withFetchWord_wf {s : State} (nbits w : Nat) (h : s.mem.wf) : (s.withFetchWord nbits w).mem.wf :=
  hostLoad_wf (s := { s with halted := false }) _ _ h

theorem reset_mem_wf : State.reset.mem.wf := by decide

end Sys2Proof.Machine
end

