-- ==== Sys2Proof/Laws/Ops.lean ====
section
/-!
SUPPORT. One lemma for each shared operation, saying all it does: bytes and words, memory access and the transactions
it presents, fetch, push and pop, register writes, the single-flag write, and the ALU functions.
-/

namespace Sys2Proof.Machine

/-! ### Bytes and words -/

theorem joinBytes_toNat (hi lo : Byte) : (joinBytes hi lo).toNat = hi.toNat * 256 + lo.toNat := by
  unfold joinBytes
  rw [BitVec.toNat_append, ← Nat.shiftLeft_add_eq_or_of_lt lo.isLt, Nat.shiftLeft_eq]

theorem hiByte_toNat (w : Word) : (hiByte w).toNat = w.toNat / 256 := by
  have := w.isLt
  simp only [hiByte, BitVec.extractLsb'_toNat, Nat.shiftRight_eq_div_pow]
  omega

theorem loByte_toNat (w : Word) : (loByte w).toNat = w.toNat % 256 := by
  simp [loByte, BitVec.extractLsb'_toNat]

@[simp] theorem hiByte_joinBytes (hi lo : Byte) : hiByte (joinBytes hi lo) = hi := by
  have := lo.isLt
  apply BitVec.eq_of_toNat_eq
  rw [hiByte_toNat, joinBytes_toNat]
  omega

@[simp] theorem loByte_joinBytes (hi lo : Byte) : loByte (joinBytes hi lo) = lo := by
  have := lo.isLt
  apply BitVec.eq_of_toNat_eq
  rw [loByte_toNat, joinBytes_toNat]
  omega

@[simp] theorem joinBytes_hiByte_loByte (w : Word) : joinBytes (hiByte w) (loByte w) = w := by
  apply BitVec.eq_of_toNat_eq
  rw [joinBytes_toNat, hiByte_toNat, loByte_toNat]
  omega

theorem word_add_one_ne (a : Word) : a + 1 ≠ a := by
  intro h
  have := congrArg BitVec.toNat h
  simp at this
  have := a.isLt
  omega

/-! ### Memory access -/

theorem memRead_memWrite (s : State) (addr x : Word) (v : Byte) :
    memRead (memWrite addr v s) x = if x = addr then v else memRead s x := by
  simp [memRead, Memory.read_write, BitVec.toNat_inj]

/-- A byte write stores that byte and leaves all else. -/
theorem memWrite_storesByte (s : State) (addr : Word) (v : Byte) : StoresByte s (memWrite addr v s) addr v :=
  ⟨rfl, fun x => memRead_memWrite s addr x v⟩

/-! ### Accesses as transactions -/

theorem busRead_eq (addr : Word) (s : State) :
    busRead addr s = (memRead s addr, { s with bus := s.bus ++ [.memRead addr (memRead s addr)] }) := rfl

/-- A word read presents its two reads, lower address first. -/
theorem busReadWord_eq (addr : Word) (s : State) :
    busReadWord addr s =
      (joinBytes (memRead s (addr + 1)) (memRead s addr), { s with bus := s.bus ++ wordReads s addr }) := by
  rw [wordReads, ← List.singleton_append, ← List.append_assoc]
  rfl

/-- A byte write stores that byte, presents it, and leaves all else. -/
theorem busWrite_storesByte (s : State) (addr : Word) (v : Byte) :
    StoresByte { s with bus := s.bus ++ [.memWrite addr v] } (busWrite addr v s) addr v :=
  ⟨rfl, fun x => memRead_memWrite s addr x v⟩

theorem memRead_busWriteWord (s : State) (addr w x : Word) :
    memRead (busWriteWord addr w s) x =
      if x = addr then loByte w else if x = addr + 1 then hiByte w else memRead s x := by
  have byte (a y : Word) (v : Byte) (u : State) : memRead (busWrite a v u) y = if y = a then v else memRead u y :=
    memRead_memWrite u a y v
  simp only [busWriteWord, byte]
  by_cases h : x = addr <;> simp [h]

/-- A word write stores that word, presents its two writes, lower address first, and leaves all else. -/
theorem busWriteWord_storesWord (s : State) (addr w : Word) :
    StoresWord { s with bus := s.bus ++ wordWrites addr w } (busWriteWord addr w s) addr w := by
  refine ⟨?_, fun x => memRead_busWriteWord s addr w x⟩
  rw [wordWrites, ← List.singleton_append, ← List.append_assoc]
  rfl

/-- A word read gives the word last stored there. -/
theorem busReadWord_of_storesWord {s t : State} {addr w : Word} (h : StoresWord s t addr w) :
    (busReadWord addr t).1 = w := by
  simp [busReadWord_eq, h.2]

/-- A push stores the word below the old SP. -/
theorem push16_storesWord (w : Word) (s : State) :
    StoresWord { s with sp := s.sp - 2, bus := s.bus ++ wordWrites (s.sp - 2) w } (push16 w s) (s.sp - 2) w :=
  busWriteWord_storesWord { s with sp := s.sp - 2 } _ _

theorem pop16_eq (s : State) :
    pop16 s = (joinBytes (memRead s (s.sp + 1)) (memRead s s.sp),
      { s with sp := s.sp + 2, bus := s.bus ++ wordReads s s.sp }) := by
  simp only [pop16, busReadWord_eq]

/-- A memory accepts one sequence and then another exactly when it accepts the two as one. -/
theorem accepts_append (m m' : Memory) (xs ys : List Transaction) :
    Accepts m (xs ++ ys) m' ↔ ∃ between, Accepts m xs between ∧ Accepts between ys m' := by
  induction xs generalizing m with
  | nil => simp [Accepts]
  | cons x xs ih => cases x <;> simp [Accepts, ih, and_assoc]

theorem portAccesses_append (xs ys : List Transaction) :
    portAccesses (xs ++ ys) = portAccesses xs ++ portAccesses ys := by
  induction xs with
  | nil => rfl
  | cons x xs ih => cases x <;> simp [portAccesses, ih]

/-! ### Register writes -/

theorem writeR8_writes (r : R8) (v : Byte) (s : State) : WritesR8 r v s (writeR8 r v s) := by
  cases r <;> first | rfl | exact memWrite_storesByte s (hl s) v

theorem writeRp_writes (p : Rp) (w : Word) (s : State) : WritesRp p w s (writeRp p w s) := by
  cases p <;> rfl

/-- Reading an operand gives it and presents its reads. -/
theorem readOperand_eq (r : R8) (s : State) :
    readOperand r s = (readR8 r s, { s with bus := s.bus ++ operandReads s r }) := by
  cases r <;> simp [readOperand, operandReads, busRead_eq, readR8]

/-- Writing an operand writes the register or the byte at HL, presents its writes, and leaves all else. -/
theorem writeOperand_writes (r : R8) (v : Byte) (s : State) :
    WritesR8 r v { s with bus := s.bus ++ operandWrites s r v } (writeOperand r v s) := by
  cases r <;> first | exact busWrite_storesByte s (hl s) v | simp [WritesR8, writeOperand, writeR8, operandWrites]

@[simp] theorem writeOperand_bus (r : R8) (v : Byte) (s : State) :
    (writeOperand r v s).bus = s.bus ++ operandWrites s r v := by
  cases r <;> simp [writeOperand, writeR8, operandWrites]

@[simp] theorem writeOperand_f (r : R8) (v : Byte) (s : State) : (writeOperand r v s).f = s.f := by
  cases r <;> rfl

@[simp] theorem writeOperand_pc (r : R8) (v : Byte) (s : State) : (writeOperand r v s).pc = s.pc := by
  cases r <;> rfl

@[simp] theorem writeOperand_sp (r : R8) (v : Byte) (s : State) : (writeOperand r v s).sp = s.sp := by
  cases r <;> rfl

@[simp] theorem writeOperand_halted (r : R8) (v : Byte) (s : State) : (writeOperand r v s).halted = s.halted := by
  cases r <;> rfl

@[simp] theorem writeOperand_inte (r : R8) (v : Byte) (s : State) : (writeOperand r v s).inte = s.inte := by
  cases r <;> rfl

@[simp] theorem writeOperand_cycles (r : R8) (v : Byte) (s : State) : (writeOperand r v s).cycles = s.cycles := by
  cases r <;> rfl

@[simp] theorem writeOperand_portLog (r : R8) (v : Byte) (s : State) : (writeOperand r v s).portLog = s.portLog := by
  cases r <;> rfl

/-- A register write and the report are independent. -/
theorem report_writeR8 (n : Nat) (r : R8) (v : Byte) (s : State) :
    report n (writeR8 r v s) = writeR8 r v (report n s) := by
  cases r <;> rfl

theorem report_writeOperand (n : Nat) (r : R8) (v : Byte) (s : State) :
    report n (writeOperand r v s) = writeOperand r v (report n s) := by
  cases r <;> rfl

theorem report_writeRp (n : Nat) (p : Rp) (w : Word) (s : State) :
    report n (writeRp p w s) = writeRp p w (report n s) := by
  cases p <;> rfl

/-! ### Flags -/

@[simp] theorem flag_setFlag (x y : Flag) (v : Bool) (f : Byte) :
    flag x (setFlag y v f) = if x = y then v else flag x f := by
  cases x <;> cases y <;> cases v <;> simp [flag, setFlag, Flag.pos]

@[simp] theorem setFlag_fixed (x : Flag) (v : Bool) (f : Byte) : setFlag x v f &&& 42#8 = f &&& 42#8 := by
  cases x <;> cases v <;> revert f <;> decide

theorem szp_flagsAre (v f : Byte) :
    FlagsAre f (szp v f) (v.getLsbD 7) (v == 0) (flag .ac f) (parity v) (flag .cy f) := by
  simp [szp, FlagsAre]

theorem loadFlags_fixed (v : Byte) : FixedBits (loadFlags v) := by
  revert v
  decide

/-! ### Fetch -/

theorem fetch8_eq (s : State) :
    fetch8 s = (memRead s s.pc, { s with pc := s.pc + 1, bus := s.bus ++ [.memRead s.pc (memRead s s.pc)] }) := rfl

theorem fetch16_eq (s : State) :
    fetch16 s = (joinBytes (memRead s (s.pc + 1)) (memRead s s.pc),
      { s with pc := s.pc + 2, bus := s.bus ++ wordReads s s.pc }) := by
  simp only [fetch16, busReadWord_eq]

end Sys2Proof.Machine
end

