-- ==== Sys2Proof/Laws/Alu.lean ====
section
/-!
SUPPORT. One lemma for each function of Machine/Flags.lean that computes a result with its flags, and for each
conditional transfer, port access and count of Machine/Operands.lean and Machine/Ops.lean, saying all it does.
-/

namespace Sys2Proof.Machine

theorem lowNibble_eq (v : Byte) : lowNibble v = v.toNat % 16 := by
  revert v
  decide

/-- A write of CY leaves the seven other bits. -/
theorem setFlag_cy_others (v : Bool) (f : Byte) : setFlag .cy v f &&& 0xFE = f &&& 0xFE := by
  revert v f
  decide

/-- What S, Z, P of a result, then AC, then CY make of F. -/
theorem szp_ac_cy_flagsAre (v f : Byte) (aux carry : Bool) :
    FlagsAre f (szp v (setFlag .ac aux (setFlag .cy carry f))) (v.getLsbD 7) (v == 0) aux (parity v) carry := by
  simp [szp, FlagsAre]

/-- What S, Z, P of a result, then AC make of F. -/
theorem szp_ac_flagsAre (v f : Byte) (aux : Bool) :
    FlagsAre f (szp v (setFlag .ac aux f)) (v.getLsbD 7) (v == 0) aux (parity v) (flag .cy f) := by
  simp [szp, FlagsAre]

/-- The addition: its result, and its five flags in arithmetic on numbers. -/
theorem add8_spec (a b : Byte) (cin : Bool) (f : Byte) :
    (add8 a b cin f).1 = a + b + BitVec.ofNat 8 cin.toNat ∧
    FlagsAre f (add8 a b cin f).2 ((add8 a b cin f).1.getLsbD 7) ((add8 a b cin f).1 == 0)
      (decide (16 ≤ a.toNat % 16 + b.toNat % 16 + cin.toNat)) (parity (add8 a b cin f).1)
      (decide (256 ≤ a.toNat + b.toNat + cin.toNat)) := by
  refine ⟨BitVec.eq_of_toNat_eq (by simp [add8]), ?_⟩
  have flags : (add8 a b cin f).2 = szp (add8 a b cin f).1
      (setFlag .ac (decide (16 ≤ a.toNat % 16 + b.toNat % 16 + cin.toNat))
        (setFlag .cy (decide (256 ≤ a.toNat + b.toNat + cin.toNat)) f)) := by
    simp only [add8, lowNibble_eq]
    rfl
  rw [flags]
  exact szp_ac_cy_flagsAre _ _ _ _

/-- The subtraction: its result, and its five flags, the borrows themselves. -/
theorem sub8_spec (a b : Byte) (bin : Bool) (f : Byte) :
    (sub8 a b bin f).1 = a - b - BitVec.ofNat 8 bin.toNat ∧
    FlagsAre f (sub8 a b bin f).2 ((sub8 a b bin f).1.getLsbD 7) ((sub8 a b bin f).1 == 0)
      (decide (a.toNat % 16 < b.toNat % 16 + bin.toNat)) (parity (sub8 a b bin f).1)
      (decide (a.toNat < b.toNat + bin.toNat)) := by
  have result : (sub8 a b bin f).1 = a - b - BitVec.ofNat 8 bin.toNat := by
    have := a.isLt
    have := b.isLt
    have : bin.toNat ≤ 1 := by cases bin <;> decide
    apply BitVec.eq_of_toNat_eq
    simp [sub8, BitVec.toNat_ofInt, BitVec.toNat_sub]
    omega
  have borrow (x y : Nat) : decide ((x : Int) - y - bin.toNat < 0) = decide (x < y + bin.toNat) := by
    congr 1
    apply propext
    omega
  refine ⟨result, ?_⟩
  have flags : (sub8 a b bin f).2 = szp (sub8 a b bin f).1 (setFlag .ac (decide (a.toNat % 16 < b.toNat % 16 + bin.toNat))
      (setFlag .cy (decide (a.toNat < b.toNat + bin.toNat)) f)) := by
    simp only [sub8, borrow, lowNibble_eq]
  rw [flags]
  exact szp_ac_cy_flagsAre _ _ _ _

/-- The increment: CY is kept. -/
theorem inc8_spec (v f : Byte) :
    (inc8 v f).1 = v + 1 ∧
    FlagsAre f (inc8 v f).2 ((v + 1).getLsbD 7) (v + 1 == 0) (decide (v.toNat % 16 = 15)) (parity (v + 1))
      (flag .cy f) := by
  have carry : decide (lowNibble v + 1 > 0x0F) = decide (v.toNat % 16 = 15) := by
    rw [lowNibble_eq]
    congr 1
    apply propext
    omega
  refine ⟨rfl, ?_⟩
  simp only [inc8, carry]
  exact szp_ac_flagsAre _ _ _

/-- The decrement: CY is kept, AC is the borrow. -/
theorem dec8_spec (v f : Byte) :
    (dec8 v f).1 = v - 1 ∧
    FlagsAre f (dec8 v f).2 ((v - 1).getLsbD 7) (v - 1 == 0) (decide (v.toNat % 16 = 0)) (parity (v - 1))
      (flag .cy f) := by
  have borrow : decide ((lowNibble v : Int) - 1 < 0) = decide (v.toNat % 16 = 0) := by
    rw [lowNibble_eq]
    congr 1
    apply propext
    omega
  refine ⟨rfl, ?_⟩
  simp only [dec8, borrow]
  exact szp_ac_flagsAre _ _ _

/-- The pair adder. -/
theorem add16_spec (x y : Word) (f : Byte) :
    add16 x y f = (x + y, setFlag .cy (decide (65536 ≤ x.toNat + y.toNat)) f) := by
  have sum : BitVec.ofNat 16 (x.toNat + y.toNat) = x + y := BitVec.eq_of_toNat_eq (by simp)
  simp only [add16, sum, gt_iff_lt, Nat.lt_iff_add_one_le]

/-- The logical functions: CY is cleared. -/
theorem logic8_spec (op : LogicOp) (a b f : Byte) :
    FlagsAre f (logic8 op a b f).2 ((logic8 op a b f).1.getLsbD 7) ((logic8 op a b f).1 == 0)
      (match op with | .and => a.getLsbD 3 || b.getLsbD 3 | .xor => false | .or => false)
      (parity (logic8 op a b f).1) false := by
  cases op <;> exact szp_ac_cy_flagsAre _ _ _ _

/-- Decimal adjust with its two conditions named: the low correction, and the high one on the uncut value. -/
theorem decimalAdjust_spec (a f : Byte) :
    ∃ low high : Bool, low = (decide (9 < a.toNat % 16) || flag .ac f) ∧
      high = (decide (9 < (a.toNat + if low then 6 else 0) / 16) || flag .cy f) ∧
      (decimalAdjust a f).1.toNat = (a.toNat + (if low then 6 else 0) + if high then 96 else 0) % 256 ∧
      FlagsAre f (decimalAdjust a f).2 ((decimalAdjust a f).1.getLsbD 7) ((decimalAdjust a f).1 == 0)
        (low && decide (10 ≤ a.toNat % 16)) (parity (decimalAdjust a f).1) high := by
  refine ⟨_, _, rfl, rfl, ?_, ?_⟩
  · have step (b : Bool) (n k : Nat) : (if b = true then n + k else n) = n + if b = true then k else 0 := by
      cases b <;> rfl
    simp only [decimalAdjust, BitVec.toNat_ofNat, lowNibble_eq, step, gt_iff_lt]
  · have nibble : decide (a.toNat % 16 + 6 > 15) = decide (10 ≤ a.toNat % 16) := by
      congr 1
      apply propext
      omega
    have step (b : Bool) : (if b = true then a.toNat + 6 else a.toNat) = a.toNat + if b = true then 6 else 0 := by
      cases b <;> rfl
    have carry (b : Bool) : FlagsAre f (if (b || flag .cy f) = true then setFlag .cy true f else f) (flag .s f)
        (flag .z f) (flag .ac f) (flag .p f) (b || flag .cy f) := by
      cases b <;> cases h : flag .cy f <;> simp [FlagsAre, h]
    have flags := szp_flagsAre (decimalAdjust a f).1
      (setFlag .ac ((decide (9 < a.toNat % 16) || flag .ac f) && decide (10 ≤ a.toNat % 16))
        (if (decide (9 < (a.toNat + if (decide (9 < a.toNat % 16) || flag .ac f) = true then 6 else 0) / 16) ||
          flag .cy f) = true then setFlag .cy true f else f))
    have same : (decimalAdjust a f).2 = szp (decimalAdjust a f).1
      (setFlag .ac ((decide (9 < a.toNat % 16) || flag .ac f) && decide (10 ≤ a.toNat % 16))
        (if (decide (9 < (a.toNat + if (decide (9 < a.toNat % 16) || flag .ac f) = true then 6 else 0) / 16) ||
          flag .cy f) = true then setFlag .cy true f else f)) := by
      simp only [decimalAdjust, lowNibble_eq, nibble, step, gt_iff_lt]
    have cy := carry (decide (9 < (a.toNat + if (decide (9 < a.toNat % 16) || flag .ac f) = true then 6 else 0) / 16))
    rw [← same] at flags
    exact ⟨flags.1, flags.2.1, flags.2.2.1.trans (by simp), flags.2.2.2.1,
      flags.2.2.2.2.1.trans ((flag_setFlag ..).trans cy.2.2.2.2.1),
      flags.2.2.2.2.2.trans ((setFlag_fixed ..).trans cy.2.2.2.2.2)⟩

/-! ### Transfers, ports, counts -/

theorem jumpIf_eq (k : Cond) (target : Word) (s : State) :
    jumpIf k target s = { s with pc := if cond k s then target else s.pc, cycles := 10 } := by
  unfold jumpIf
  split <;> rfl

theorem callTo_storesWord (target : Word) (s : State) :
    StoresWord { s with sp := s.sp - 2, pc := target, bus := s.bus ++ wordWrites (s.sp - 2) s.pc } (callTo target s)
      (s.sp - 2) s.pc := by
  refine ⟨?_, (push16_storesWord s.pc s).2⟩
  rw [callTo, (push16_storesWord s.pc s).1]
  rfl

theorem returnFrom_eq (s : State) :
    returnFrom s =
      { s with
        pc := joinBytes (memRead s (s.sp + 1)) (memRead s s.sp), sp := s.sp + 2, bus := s.bus ++ wordReads s s.sp } := by
  simp only [returnFrom, pop16_eq]
  rfl

theorem portRead_eq (p : Byte) (s : State) :
    portRead p s = if Config.ioReadPresent then (Config.portIn s.portLog p,
      presentPort (.read p (Config.portIn s.portLog p)) s) else (0xFF, s) := rfl

theorem portWrite_eq (p v : Byte) (s : State) :
    portWrite p v s = if Config.ioWritePresent then presentPort (.write p v) s else s := rfl

theorem countFor_eq (reg mem : Nat) (r : R8) : countFor reg mem r = if r = .m then mem else reg := by
  cases r <;> rfl

end Sys2Proof.Machine
end

