-- ==== Sys2Proof/Laws/Decode.lean ====
section
/-!
SUPPORT. The decoder, case by case of the opcode's three fields: which operand bytes an opcode uses, how long its
instruction is, what `decode` and `fetchInstr` answer, and the step in those terms.
-/

namespace Sys2Proof.Machine

theorem bitVec2_cases (y : BitVec 2) : y = 0 ∨ y = 1 ∨ y = 2 ∨ y = 3 := by
  revert y
  decide

theorem bitVec3_cases (y : BitVec 3) : y = 0 ∨ y = 1 ∨ y = 2 ∨ y = 3 ∨ y = 4 ∨ y = 5 ∨ y = 6 ∨ y = 7 := by
  revert y
  decide

theorem opcodeOf_fields (op : Byte) : opcodeOf (opQuadrant op) (opMid op) (opLow op) = op := by
  revert op
  decide

/-- To prove something of every opcode, prove it of every choice of the three fields. -/
theorem opcode_induction {P : Byte → Prop} (fields : ∀ q y z, P (opcodeOf q y z)) (op : Byte) : P op :=
  opcodeOf_fields op ▸ fields _ _ _

theorem opQuadrant_opcodeOf (q : BitVec 2) (y z : BitVec 3) : opQuadrant (opcodeOf q y z) = q := by
  revert q y z
  decide

theorem opMid_opcodeOf (q : BitVec 2) (y z : BitVec 3) : opMid (opcodeOf q y z) = y := by
  revert q y z
  decide

theorem opLow_opcodeOf (q : BitVec 2) (y z : BitVec 3) : opLow (opcodeOf q y z) = z := by
  revert q y z
  decide

/-- The decoder by quadrant, on the fields of the opcode. -/
theorem decodeOp_opcodeOf (q : BitVec 2) (y z : BitVec 3) (b2 b3 : Byte) :
    decodeOp (opcodeOf q y z) b2 b3 =
      match q.toNat with
      | 0 => decodeQuadrant0 y z b2 (joinBytes b3 b2)
      | 1 => decodeQuadrant1 y z
      | 2 => decodeQuadrant2 y (R8.ofSel z)
      | 3 => decodeQuadrant3 y z b2 (joinBytes b3 b2)
      | _ => undefInstr := by
  show (match (opQuadrant (opcodeOf q y z)).toNat with
    | 0 => decodeQuadrant0 (opMid (opcodeOf q y z)) (opLow (opcodeOf q y z)) b2 (joinBytes b3 b2)
    | 1 => decodeQuadrant1 (opMid (opcodeOf q y z)) (opLow (opcodeOf q y z))
    | 2 => decodeQuadrant2 (opMid (opcodeOf q y z)) (R8.ofSel (opLow (opcodeOf q y z)))
    | 3 => decodeQuadrant3 (opMid (opcodeOf q y z)) (opLow (opcodeOf q y z)) b2 (joinBytes b3 b2)
    | _ => undefInstr) = _
  rw [opQuadrant_opcodeOf, opMid_opcodeOf, opLow_opcodeOf]

/-- Which of the two bytes after it an opcode uses, and its length: none, the second, or both. -/
def UsesBytes (op : Byte) : Prop :=
  ((∀ b2 b3, (decodeOp op b2 b3).length = 1) ∧ ∀ b2 b3, decodeOp op b2 b3 = decodeOp op 0 0) ∨
  ((∀ b2 b3, (decodeOp op b2 b3).length = 2) ∧ ∀ b2 b3, decodeOp op b2 b3 = decodeOp op b2 0) ∨
  ∀ b2 b3, (decodeOp op b2 b3).length = 3

theorem quadrant0_usesBytes (y z : BitVec 3) : UsesBytes (opcodeOf 0 y z) := by
  unfold UsesBytes
  have quadrant : ∀ b2 b3, decodeOp (opcodeOf 0 y z) b2 b3 = decodeQuadrant0 y z b2 (joinBytes b3 b2) :=
    fun b2 b3 => decodeOp_opcodeOf 0 y z b2 b3
  simp only [quadrant]
  rcases bitVec3_cases z with rfl | rfl | rfl | rfl | rfl | rfl | rfl | rfl <;>
    rcases bitVec3_cases y with rfl | rfl | rfl | rfl | rfl | rfl | rfl | rfl <;>
    first
    | exact .inl ⟨fun _ _ => rfl, fun _ _ => rfl⟩
    | exact .inr (.inl ⟨fun _ _ => rfl, fun _ _ => rfl⟩)
    | exact .inr (.inr fun _ _ => rfl)

theorem quadrant3_usesBytes (y z : BitVec 3) : UsesBytes (opcodeOf 3 y z) := by
  unfold UsesBytes
  have quadrant : ∀ b2 b3, decodeOp (opcodeOf 3 y z) b2 b3 = decodeQuadrant3 y z b2 (joinBytes b3 b2) :=
    fun b2 b3 => decodeOp_opcodeOf 3 y z b2 b3
  simp only [quadrant]
  rcases bitVec3_cases z with rfl | rfl | rfl | rfl | rfl | rfl | rfl | rfl <;>
    rcases bitVec3_cases y with rfl | rfl | rfl | rfl | rfl | rfl | rfl | rfl
  all_goals first
    | exact .inr (.inr fun _ _ => rfl)
    | exact .inr (.inl ⟨fun _ _ => rfl, fun _ _ => rfl⟩)
    | exact .inl ⟨fun _ _ => rfl, fun _ _ => rfl⟩

theorem quadrant1_usesBytes (y z : BitVec 3) : UsesBytes (opcodeOf 1 y z) := by
  unfold UsesBytes
  simp only [decodeOp_opcodeOf]
  refine .inl ⟨fun _ _ => ?_, fun _ _ => rfl⟩
  show (decodeQuadrant1 y z).length = 1
  unfold decodeQuadrant1
  split <;> rfl

theorem quadrant2_usesBytes (y z : BitVec 3) : UsesBytes (opcodeOf 2 y z) := by
  unfold UsesBytes
  simp only [decodeOp_opcodeOf]
  refine .inl ⟨fun _ _ => ?_, fun _ _ => rfl⟩
  rcases bitVec3_cases y with rfl | rfl | rfl | rfl | rfl | rfl | rfl | rfl <;> rfl

theorem every_opcode_usesBytes (op : Byte) : UsesBytes op := by
  revert op
  apply opcode_induction
  intro q y z
  rcases bitVec2_cases q with rfl | rfl | rfl | rfl
  · exact quadrant0_usesBytes y z
  · exact quadrant1_usesBytes y z
  · exact quadrant2_usesBytes y z
  · exact quadrant3_usesBytes y z

/-- An opcode uses none of the bytes after it, or the second, or both, as its length says. -/
theorem decodeOp_uses (op : Byte) :
    (opLength op = 1 ∧ ∀ b2 b3, decodeOp op b2 b3 = decodeOp op 0 0) ∨
    (opLength op = 2 ∧ ∀ b2 b3, decodeOp op b2 b3 = decodeOp op b2 0) ∨ opLength op = 3 := by
  rcases every_opcode_usesBytes op with h | h | h
  · exact .inl ⟨h.1 0 0, h.2⟩
  · exact .inr (.inl ⟨h.1 0 0, h.2⟩)
  · exact .inr (.inr (h 0 0))

theorem decodeOp_length (op b2 b3 : Byte) : (decodeOp op b2 b3).length = opLength op := by
  rcases every_opcode_usesBytes op with h | h | h
  · exact (h.1 b2 b3).trans (h.1 0 0).symm
  · exact (h.1 b2 b3).trans (h.1 0 0).symm
  · exact (h b2 b3).trans (h 0 0).symm

/-- What `decode` answers when there are three bytes. -/
theorem decode_three (op b2 b3 : Byte) (rest : List Byte) :
    decode (op :: b2 :: b3 :: rest) = .ok (decodeOp op b2 b3) ((op :: b2 :: b3 :: rest).drop (opLength op)) := by
  unfold decode
  rcases decodeOp_uses op with h | h | h
  · rw [h.2 b2 b3]
    simp [h.1]
  · rw [h.2 b2 b3]
    simp [h.1]
  · simp [h]

/-- `fetchInstr` reads the instruction of the three bytes at PC, presents the reads of its own bytes and moves PC past
it. -/
theorem fetchInstr_eq (s : State) :
    fetchInstr s = (decodeOp (memRead s s.pc) (memRead s (s.pc + 1)) (memRead s (s.pc + 2)),
      { s with
        pc := s.pc + BitVec.ofNat 16 (opLength (memRead s s.pc))
        bus := s.bus ++ fetchReads s (opLength (memRead s s.pc)) }) := by
  have two : ∀ x : Word, x + 1#16 + 1#16 = x + 2#16 := fun x => by rw [BitVec.add_assoc]; rfl
  have three : ∀ x : Word, x + 1#16 + 2#16 = x + 3#16 := fun x => by rw [BitVec.add_assoc]; rfl
  have same : ∀ (p x : Word) (ts : List Transaction), memRead { s with pc := p, bus := ts } x = memRead s x :=
    fun _ _ _ => rfl
  unfold fetchInstr
  rcases decodeOp_uses (memRead s s.pc) with h | h | h
  · rw [h.2]
    simp [fetch8_eq, h.1, fetchReads]
  · rw [h.2]
    simp [fetch8_eq, h.1, same, two, fetchReads, List.range_succ]
  · simp [fetch8_eq, fetch16_eq, h, same, two, three, wordReads, fetchReads, List.range_succ]

/-- The step taken with `halted = 0`, in terms of the bytes at PC. -/
theorem step_running {s : State} (h : s.halted = false) :
    step s = exec (decodeOp (memRead s s.pc) (memRead s (s.pc + 1)) (memRead s (s.pc + 2)))
      { s with
        pc := s.pc + BitVec.ofNat 16 (opLength (memRead s s.pc))
        bus := fetchReads s (opLength (memRead s s.pc)) } := by
  simp [step, h, fetchInstr_eq]
  rfl

/-- The step taken with `halted = 1`. -/
theorem step_idle {s : State} (h : s.halted = true) : step s = .next { s with cycles := 4, bus := [] } := by
  simp [step, h, idleStep, beginStep, report]

end Sys2Proof.Machine
end

