-- ==== Sys2Proof/Laws/PerInstr.lean ====
section
/-!
SUPPORT. Statements made per instruction, one lemma per constructor. `EncodedLength`: the encoding of an instruction has
as many bytes as the instruction is long (R80).
-/

namespace Sys2Proof.Laws.EncodedLength

/-- The encoding is as long as the instruction. -/
def Statement (i : Instr) : Prop := (encode i).length = i.length

theorem mov (dst src : R8) : Statement (.mov dst src) := rfl

theorem mvi (dst : R8) (d8 : Byte) : Statement (.mvi dst d8) := rfl

theorem lxi (rp : Rp) (d16 : Word) : Statement (.lxi rp d16) := rfl

theorem lda (a16 : Word) : Statement (.lda a16) := rfl

theorem sta (a16 : Word) : Statement (.sta a16) := rfl

theorem lhld (a16 : Word) : Statement (.lhld a16) := rfl

theorem shld (a16 : Word) : Statement (.shld a16) := rfl

theorem ldax (p : IndirectPair) : Statement (.ldax p) := rfl

theorem stax (p : IndirectPair) : Statement (.stax p) := rfl

theorem xchg : Statement .xchg := rfl

theorem add (src : R8) : Statement (.add src) := rfl

theorem adc (src : R8) : Statement (.adc src) := rfl

theorem sub (src : R8) : Statement (.sub src) := rfl

theorem sbb (src : R8) : Statement (.sbb src) := rfl

theorem ana (src : R8) : Statement (.ana src) := rfl

theorem xra (src : R8) : Statement (.xra src) := rfl

theorem ora (src : R8) : Statement (.ora src) := rfl

theorem cmp (src : R8) : Statement (.cmp src) := rfl

theorem adi (d8 : Byte) : Statement (.adi d8) := rfl

theorem aci (d8 : Byte) : Statement (.aci d8) := rfl

theorem sui (d8 : Byte) : Statement (.sui d8) := rfl

theorem sbi (d8 : Byte) : Statement (.sbi d8) := rfl

theorem ani (d8 : Byte) : Statement (.ani d8) := rfl

theorem xri (d8 : Byte) : Statement (.xri d8) := rfl

theorem ori (d8 : Byte) : Statement (.ori d8) := rfl

theorem cpi (d8 : Byte) : Statement (.cpi d8) := rfl

theorem inr (dst : R8) : Statement (.inr dst) := rfl

theorem dcr (dst : R8) : Statement (.dcr dst) := rfl

theorem inx (rp : Rp) : Statement (.inx rp) := rfl

theorem dcx (rp : Rp) : Statement (.dcx rp) := rfl

theorem dad (rp : Rp) : Statement (.dad rp) := rfl

theorem daa : Statement .daa := rfl

theorem rlc : Statement .rlc := rfl

theorem rrc : Statement .rrc := rfl

theorem ral : Statement .ral := rfl

theorem rar : Statement .rar := rfl

theorem cma : Statement .cma := rfl

theorem cmc : Statement .cmc := rfl

theorem stc : Statement .stc := rfl

theorem jmp (a16 : Word) : Statement (.jmp a16) := rfl

theorem jnz (a16 : Word) : Statement (.jnz a16) := rfl

theorem jz (a16 : Word) : Statement (.jz a16) := rfl

theorem jnc (a16 : Word) : Statement (.jnc a16) := rfl

theorem jc (a16 : Word) : Statement (.jc a16) := rfl

theorem jpo (a16 : Word) : Statement (.jpo a16) := rfl

theorem jpe (a16 : Word) : Statement (.jpe a16) := rfl

theorem jp (a16 : Word) : Statement (.jp a16) := rfl

theorem jm (a16 : Word) : Statement (.jm a16) := rfl

theorem call (a16 : Word) : Statement (.call a16) := rfl

theorem cnz (a16 : Word) : Statement (.cnz a16) := rfl

theorem cz (a16 : Word) : Statement (.cz a16) := rfl

theorem cnc (a16 : Word) : Statement (.cnc a16) := rfl

theorem cc (a16 : Word) : Statement (.cc a16) := rfl

theorem cpo (a16 : Word) : Statement (.cpo a16) := rfl

theorem cpe (a16 : Word) : Statement (.cpe a16) := rfl

theorem cp (a16 : Word) : Statement (.cp a16) := rfl

theorem cm (a16 : Word) : Statement (.cm a16) := rfl

theorem ret : Statement .ret := rfl

theorem rnz : Statement .rnz := rfl

theorem rz : Statement .rz := rfl

theorem rnc : Statement .rnc := rfl

theorem rc : Statement .rc := rfl

theorem rpo : Statement .rpo := rfl

theorem rpe : Statement .rpe := rfl

theorem rp : Statement .rp := rfl

theorem rm : Statement .rm := rfl

theorem rst (n : BitVec 3) : Statement (.rst n) := rfl

theorem pchl : Statement .pchl := rfl

theorem hlt : Statement .hlt := rfl

theorem ei : Statement .ei := rfl

theorem di : Statement .di := rfl

theorem nop : Statement .nop := rfl

theorem push (rp : StackPair) : Statement (.push rp) := rfl

theorem pop (rp : StackPair) : Statement (.pop rp) := rfl

theorem xthl : Statement .xthl := rfl

theorem sphl : Statement .sphl := rfl

theorem inPort (port : Byte) : Statement (.inPort port) := rfl

theorem outPort (port : Byte) : Statement (.outPort port) := rfl

end Sys2Proof.Laws.EncodedLength
end

