-- ==== Sys2Proof/Tests/Slice0.lean ====
section
/-!
SUPPORT. The model's own tests. Expected results come from the spec: the opcode map is R85's, written out again; the
effects are the vectors of spec/95_test_vectors.md, named by their ids. The last part shows, for each statement with
hypotheses, a case that meets them.
-/

namespace Sys2Proof.Machine.Tests

/-! ### Well-formedness and decoding -/

/-- The one ill-formed term is refused: MOV M,M (R84, R101). -/
theorem test_mov_m_m_ill_formed : (Instr.mov .m .m).wellFormed = false := by decide

/-- Its seven neighbours with both selectors equal are instructions (R84). -/
theorem test_mov_r_r_well_formed : (Instr.mov .a .a).wellFormed = true ∧ (Instr.mov .m .a).wellFormed = true := by
  decide

/-- The bit pattern of MOV M,M is HLT (R84). -/
theorem test_both_selectors_six_is_hlt : decode [0b01110110] = .ok .hlt [] := by decide

/-- The decoder refuses a list that ends too soon, by name. -/
theorem test_truncated_list_refused :
    decode [] = .error .noOpcode ∧ decode [0x3E] = .error (.missingOperand 0x3E) ∧
    decode [0xC3, 0x34] = .error (.missingOperand 0xC3) := by decide

/-- What the sixteen opcodes of one row of R85's map decode to, the bytes 0x34 and 0x12 following. -/
def opcodeRow (high : Nat) : List (Option Instr) :=
  (List.range 16).map fun low =>
    match decode [BitVec.ofNat 8 (16 * high + low), 0x34, 0x12] with
    | .ok i _ => some i
    | .error _ => none

/-- How long the sixteen instructions of one row are (R80, R86). -/
def lengthRow (high : Nat) : List Nat :=
  (List.range 16).map fun low => opLength (BitVec.ofNat 8 (16 * high + low))

theorem test_opcode_row_0 : opcodeRow 0 = List.map some
    [.nop, .lxi .bc 0x1234, .stax .bc, .inx .bc, .inr .b, .dcr .b, .mvi .b 0x34, .rlc, .nop, .dad .bc, .ldax .bc,
     .dcx .bc, .inr .c, .dcr .c, .mvi .c 0x34, .rrc] := by decide

theorem test_opcode_row_1 : opcodeRow 1 = List.map some
    [.nop, .lxi .de 0x1234, .stax .de, .inx .de, .inr .d, .dcr .d, .mvi .d 0x34, .ral, .nop, .dad .de, .ldax .de,
     .dcx .de, .inr .e, .dcr .e, .mvi .e 0x34, .rar] := by decide

theorem test_opcode_row_2 : opcodeRow 2 = List.map some
    [.nop, .lxi .hl 0x1234, .shld 0x1234, .inx .hl, .inr .h, .dcr .h, .mvi .h 0x34, .daa, .nop, .dad .hl,
     .lhld 0x1234, .dcx .hl, .inr .l, .dcr .l, .mvi .l 0x34, .cma] := by decide

theorem test_opcode_row_3 : opcodeRow 3 = List.map some
    [.nop, .lxi .sp 0x1234, .sta 0x1234, .inx .sp, .inr .m, .dcr .m, .mvi .m 0x34, .stc, .nop, .dad .sp, .lda 0x1234,
     .dcx .sp, .inr .a, .dcr .a, .mvi .a 0x34, .cmc] := by decide

theorem test_opcode_row_4 : opcodeRow 4 = List.map some
    [.mov .b .b, .mov .b .c, .mov .b .d, .mov .b .e, .mov .b .h, .mov .b .l, .mov .b .m, .mov .b .a, .mov .c .b,
     .mov .c .c, .mov .c .d, .mov .c .e, .mov .c .h, .mov .c .l, .mov .c .m, .mov .c .a] := by decide

theorem test_opcode_row_5 : opcodeRow 5 = List.map some
    [.mov .d .b, .mov .d .c, .mov .d .d, .mov .d .e, .mov .d .h, .mov .d .l, .mov .d .m, .mov .d .a, .mov .e .b,
     .mov .e .c, .mov .e .d, .mov .e .e, .mov .e .h, .mov .e .l, .mov .e .m, .mov .e .a] := by decide

theorem test_opcode_row_6 : opcodeRow 6 = List.map some
    [.mov .h .b, .mov .h .c, .mov .h .d, .mov .h .e, .mov .h .h, .mov .h .l, .mov .h .m, .mov .h .a, .mov .l .b,
     .mov .l .c, .mov .l .d, .mov .l .e, .mov .l .h, .mov .l .l, .mov .l .m, .mov .l .a] := by decide

theorem test_opcode_row_7 : opcodeRow 7 = List.map some
    [.mov .m .b, .mov .m .c, .mov .m .d, .mov .m .e, .mov .m .h, .mov .m .l, .hlt, .mov .m .a, .mov .a .b,
     .mov .a .c, .mov .a .d, .mov .a .e, .mov .a .h, .mov .a .l, .mov .a .m, .mov .a .a] := by decide

theorem test_opcode_row_8 : opcodeRow 8 = List.map some
    [.add .b, .add .c, .add .d, .add .e, .add .h, .add .l, .add .m, .add .a, .adc .b, .adc .c, .adc .d, .adc .e,
     .adc .h, .adc .l, .adc .m, .adc .a] := by decide

theorem test_opcode_row_9 : opcodeRow 9 = List.map some
    [.sub .b, .sub .c, .sub .d, .sub .e, .sub .h, .sub .l, .sub .m, .sub .a, .sbb .b, .sbb .c, .sbb .d, .sbb .e,
     .sbb .h, .sbb .l, .sbb .m, .sbb .a] := by decide

theorem test_opcode_row_a : opcodeRow 10 = List.map some
    [.ana .b, .ana .c, .ana .d, .ana .e, .ana .h, .ana .l, .ana .m, .ana .a, .xra .b, .xra .c, .xra .d, .xra .e,
     .xra .h, .xra .l, .xra .m, .xra .a] := by decide

theorem test_opcode_row_b : opcodeRow 11 = List.map some
    [.ora .b, .ora .c, .ora .d, .ora .e, .ora .h, .ora .l, .ora .m, .ora .a, .cmp .b, .cmp .c, .cmp .d, .cmp .e,
     .cmp .h, .cmp .l, .cmp .m, .cmp .a] := by decide

theorem test_opcode_row_c : opcodeRow 12 = List.map some
    [.rnz, .pop .bc, .jnz 0x1234, .jmp 0x1234, .cnz 0x1234, .push .bc, .adi 0x34, .rst 0, .rz, .ret, .jz 0x1234,
     .jmp 0x1234, .cz 0x1234, .call 0x1234, .aci 0x34, .rst 1] := by decide

theorem test_opcode_row_d : opcodeRow 13 = List.map some
    [.rnc, .pop .de, .jnc 0x1234, .outPort 0x34, .cnc 0x1234, .push .de, .sui 0x34, .rst 2, .rc, .ret, .jc 0x1234,
     .inPort 0x34, .cc 0x1234, .call 0x1234, .sbi 0x34, .rst 3] := by decide

theorem test_opcode_row_e : opcodeRow 14 = List.map some
    [.rpo, .pop .hl, .jpo 0x1234, .xthl, .cpo 0x1234, .push .hl, .ani 0x34, .rst 4, .rpe, .pchl, .jpe 0x1234, .xchg,
     .cpe 0x1234, .call 0x1234, .xri 0x34, .rst 5] := by decide

theorem test_opcode_row_f : opcodeRow 15 = List.map some
    [.rp, .pop .psw, .jp 0x1234, .di, .cp 0x1234, .push .psw, .ori 0x34, .rst 6, .rm, .sphl, .jm 0x1234, .ei,
     .cm 0x1234, .call 0x1234, .cpi 0x34, .rst 7] := by decide

theorem test_lengths_low :
    lengthRow 0 = [1, 3, 1, 1, 1, 1, 2, 1, 1, 1, 1, 1, 1, 1, 2, 1] ∧
    lengthRow 1 = [1, 3, 1, 1, 1, 1, 2, 1, 1, 1, 1, 1, 1, 1, 2, 1] ∧
    lengthRow 2 = [1, 3, 3, 1, 1, 1, 2, 1, 1, 1, 3, 1, 1, 1, 2, 1] ∧
    lengthRow 3 = [1, 3, 3, 1, 1, 1, 2, 1, 1, 1, 3, 1, 1, 1, 2, 1] := by decide

theorem test_lengths_middle :
    (List.range 8).map (fun k => lengthRow (4 + k)) = List.replicate 8 (List.replicate 16 1) := by
  decide

theorem test_lengths_high :
    lengthRow 12 = [1, 1, 3, 3, 3, 1, 2, 1, 1, 1, 3, 3, 3, 3, 2, 1] ∧
    lengthRow 13 = [1, 1, 3, 2, 3, 1, 2, 1, 1, 1, 3, 2, 3, 3, 2, 1] ∧
    lengthRow 14 = [1, 1, 3, 1, 3, 1, 2, 1, 1, 1, 3, 1, 3, 3, 2, 1] ∧
    lengthRow 15 = [1, 1, 3, 1, 3, 1, 2, 1, 1, 1, 3, 1, 3, 3, 2, 1] := by decide

/-- The table's words of MVI and JMP, numbered from the first byte (bits 15..8 are the second). -/
theorem test_table_words :
    decodeTableWord 16 0x343E = some (.mvi .a 0x34) ∧ decodeTableWord 24 0x1234C3 = some (.jmp 0x1234) ∧
    decodeTableWord 8 0x3E = some (.mvi .a 0x00) := by decide

/-! ### One step each, by family -/

/-- A machine as `s` says, with `code` loaded at 0x0100 and PC there. -/
def loaded (code : List Byte) (s : State) : State := hostLoad 0x0100 code { s with pc := 0x0100 }

/-- The creation state with `bytes` loaded at `addr`. -/
def withBytes (addr : Word) (bytes : List Byte) : State := hostLoad addr bytes State.reset

/-- What one step leaves, seen through `view`; nothing where there is no next state. -/
def sees {α : Type} (s : State) (view : State → α) : Option α :=
  match step s with
  | .next t => some (view t)
  | .fault _ => none
  | .refused _ => none

/-- VD1, VD5. -/
theorem test_mov_register :
    sees (loaded [0x41] { State.reset with c := 0x5A, f := 0xD7 })
      (fun t => (t.b, t.f, t.pc, t.cycles)) = some (0x5A, 0xD7, 0x0101, 5) ∧
    sees (loaded [0x66] { (withBytes 0x2040 [0x99]) with h := 0x20, l := 0x40 })
      (fun t => (t.h, t.l, t.cycles)) = some (0x99, 0x40, 7) := by decide

/-- VD3, E9. -/
theorem test_mov_memory :
    sees (loaded [0x74] { State.reset with h := 0x20, l := 0x40 })
      (fun t => (memRead t 0x2040, hl t, t.cycles)) = some (0x20, 0x2040, 7) ∧
    sees (loaded [0x7E] { (withBytes 0x2000 [0x55]) with h := 0x20, l := 0x00 })
      (fun t => (t.a, t.cycles)) = some (0x55, 7) := by decide

/-- VD6, VD7. -/
theorem test_mvi :
    sees (loaded [0x3E, 0x9A] State.reset) (fun t => (t.a, t.pc, t.cycles)) = some (0x9A, 0x0102, 7) ∧
    sees (loaded [0x36, 0x55] { State.reset with h := 0xFF, l := 0xFF })
      (fun t => (memRead t 0xFFFF, t.cycles)) = some (0x55, 10) := by decide

/-- VD9, VD10. -/
theorem test_lxi :
    sees (loaded [0x31, 0xFE, 0xFF] State.reset)
      (fun t => (t.sp, t.pc, t.cycles)) = some (0xFFFE, 0x0103, 10) ∧
    sees (loaded [0x01, 0x34, 0x12] State.reset) (fun t => (t.b, t.c)) = some (0x12, 0x34) := by decide

/-- VD11. -/
theorem test_lda :
    sees (loaded [0x3A, 0xFF, 0xFF] (withBytes 0xFFFF [0xA5]))
      (fun t => (t.a, t.cycles)) = some (0xA5, 13) := by decide

/-- VD12. -/
theorem test_sta :
    sees (loaded [0x32, 0x00, 0x00] { State.reset with a := 0x3C })
      (fun t => (memRead t 0x0000, t.pc, t.cycles)) = some (0x3C, 0x0103, 13) := by decide

/-- VD13. -/
theorem test_lhld_wraps :
    sees (loaded [0x2A, 0xFF, 0xFF] (withBytes 0xFFFF [0x34, 0x12]))
      (fun t => (t.l, t.h, t.cycles)) = some (0x34, 0x12, 16) := by decide

/-- VD14. -/
theorem test_shld_wraps :
    sees (loaded [0x22, 0xFF, 0xFF] { State.reset with h := 0xBE, l := 0xEF })
      (fun t => (memRead t 0xFFFF, memRead t 0x0000, t.cycles)) = some (0xEF, 0xBE, 16) := by decide

/-- VD15, VD16. -/
theorem test_ldax :
    sees (loaded [0x0A] { (withBytes 0x3000 [0x42]) with b := 0x30, c := 0x00 })
      (fun t => (t.a, t.cycles)) = some (0x42, 7) ∧
    sees (loaded [0x1A] { (withBytes 0x2000 [0x55]) with d := 0x20, e := 0x00 })
      (fun t => t.a) = some 0x55 := by decide

/-- VD17, VD18. -/
theorem test_stax :
    sees (loaded [0x12] { State.reset with d := 0x30, e := 0x01, a := 0x99 })
      (fun t => (memRead t 0x3001, t.cycles)) = some (0x99, 7) ∧
    sees (loaded [0x02] { State.reset with b := 0x30, c := 0x00, a := 0x42 })
      (fun t => memRead t 0x3000) = some 0x42 := by decide

/-- VD19. -/
theorem test_xchg :
    sees (loaded [0xEB] { State.reset with d := 0x12, e := 0x34, h := 0xAB, l := 0xCD, f := 0x97 })
      (fun t => (de t, hl t, t.f, t.cycles)) = some (0xABCD, 0x1234, 0x97, 4) := by decide

/-- VA1, VA4. -/
theorem test_add :
    sees (loaded [0x80] { State.reset with a := 0x2E, b := 0x6C })
      (fun t => (t.a, t.f, t.cycles)) = some (0x9A, 0x96, 4) ∧
    sees (loaded [0x86] { (withBytes 0x2000 [0x01]) with a := 0x7F, h := 0x20, l := 0x00 })
      (fun t => (t.a, t.f, t.cycles)) = some (0x80, 0x92, 7) := by decide

/-- VA5, VA6. -/
theorem test_adi :
    sees (loaded [0xC6, 0x00] { State.reset with f := 0x13 })
      (fun t => (t.a, t.f, t.cycles)) = some (0x00, 0x46, 7) ∧
    sees (loaded [0xC6, 0xFF] { State.reset with a := 0x01 }) (fun t => (t.a, t.f)) = some (0x00, 0x57) := by
  decide

/-- VA8, VA9. -/
theorem test_adc :
    sees (loaded [0x89] { State.reset with a := 0x3D, c := 0x42, f := 0x03 })
      (fun t => (t.a, t.f, t.cycles)) = some (0x80, 0x92, 4) ∧
    sees (loaded [0x8F] { State.reset with a := 0x80, f := 0x03 })
      (fun t => (t.a, t.f)) = some (0x01, 0x03) := by decide

/-- VA11, VA12. -/
theorem test_aci :
    sees (loaded [0xCE, 0x00] { State.reset with a := 0x0E, f := 0x03 })
      (fun t => (t.a, t.f, t.cycles)) = some (0x0F, 0x06, 7) ∧
    sees (loaded [0xCE, 0x00] { State.reset with a := 0x0F, f := 0x03 })
      (fun t => (t.a, t.f)) = some (0x10, 0x12) := by decide

/-- VA14, VA15. -/
theorem test_sub :
    sees (loaded [0x90] { State.reset with b := 0x01 })
      (fun t => (t.a, t.f, t.cycles)) = some (0xFF, 0x97, 4) ∧
    sees (loaded [0x90] { State.reset with a := 0x80, b := 0x01 })
      (fun t => (t.a, t.f)) = some (0x7F, 0x12) := by decide

/-- VA16, VA17. -/
theorem test_sui :
    sees (loaded [0xD6, 0x01] { State.reset with a := 0x10 })
      (fun t => (t.a, t.f, t.cycles)) = some (0x0F, 0x16, 7) ∧
    sees (loaded [0xD6, 0x05] { State.reset with a := 0x05, f := 0x03 })
      (fun t => (t.a, t.f)) = some (0x00, 0x46) := by decide

/-- VA18, VA19. -/
theorem test_sbb :
    sees (loaded [0x98] { State.reset with b := 0xFF, f := 0x03 })
      (fun t => (t.a, t.f, t.cycles)) = some (0x00, 0x57, 4) ∧
    sees (loaded [0x9D] { State.reset with a := 0x04, l := 0x02, f := 0x03 })
      (fun t => (t.a, t.f)) = some (0x01, 0x02) := by decide

/-- VA22, VA23. -/
theorem test_sbi :
    sees (loaded [0xDE, 0x01] State.reset) (fun t => (t.a, t.f, t.cycles)) = some (0xFF, 0x97, 7) ∧
    sees (loaded [0xDE, 0x0F] { State.reset with a := 0x10, f := 0x03 })
      (fun t => (t.a, t.f)) = some (0x00, 0x56) := by decide

/-- VA25, VA27. -/
theorem test_cmp :
    sees (loaded [0xBB] { State.reset with a := 0x02, e := 0x05 })
      (fun t => (t.a, t.f, t.cycles)) = some (0x02, 0x93, 4) ∧
    sees (loaded [0xBE] { (withBytes 0x2000 [0x7F]) with a := 0x80, h := 0x20, l := 0x00 })
      (fun t => (t.a, t.f, t.cycles)) = some (0x80, 0x12, 7) := by decide

/-- VA28, E6. -/
theorem test_cpi :
    sees (loaded [0xFE, 0xFF] State.reset) (fun t => (t.a, t.f, t.cycles)) = some (0x00, 0x13, 7) ∧
    sees (loaded [0xFE, 0x0A] { State.reset with a := 0x0A }) (fun t => (t.a, t.f)) = some (0x0A, 0x46) := by
  decide

/-- VA30, VA32. -/
theorem test_inr :
    sees (loaded [0x3C] { State.reset with a := 0x0F, f := 0x03 })
      (fun t => (t.a, t.f, t.cycles)) = some (0x10, 0x13, 5) ∧
    sees (loaded [0x34] { (withBytes 0x2000 [0x7F]) with h := 0x20, l := 0x00 })
      (fun t => (memRead t 0x2000, t.f, t.cycles)) = some (0x80, 0x92, 10) := by decide

/-- VA33, VA36. -/
theorem test_dcr :
    sees (loaded [0x05] State.reset) (fun t => (t.b, t.f, t.cycles)) = some (0xFF, 0x96, 5) ∧
    sees (loaded [0x35] { (withBytes 0x2000 [0x80]) with h := 0x20, l := 0x00 })
      (fun t => (memRead t 0x2000, t.f, t.cycles)) = some (0x7F, 0x12, 10) := by decide

/-- VA37, VA39. -/
theorem test_inx :
    sees (loaded [0x23] { State.reset with h := 0xFF, l := 0xFF, f := 0xD7 })
      (fun t => (hl t, t.f, t.cycles)) = some (0x0000, 0xD7, 5) ∧
    sees (loaded [0x33] { State.reset with sp := 0xFFFF }) (fun t => t.sp) = some 0x0000 := by decide

/-- VA40, VA41. -/
theorem test_dcx :
    sees (loaded [0x0B] State.reset) (fun t => (bc t, t.f, t.cycles)) = some (0xFFFF, 0x02, 5) ∧
    sees (loaded [0x2B] { State.reset with h := 0x98, l := 0x00 }) (fun t => hl t) = some 0x97FF := by
  decide

/-- VA43, VA44. -/
theorem test_dad :
    sees (loaded [0x09] { State.reset with h := 0xA1, l := 0x7B, b := 0x33, c := 0x9F, f := 0x03 })
      (fun t => (hl t, t.f, t.cycles)) = some (0xD51A, 0x02, 10) ∧
    sees (loaded [0x29] { State.reset with h := 0x80, l := 0x00, f := 0xC2 })
      (fun t => (hl t, t.f)) = some (0x0000, 0xC3) := by decide

/-- The thirteen rows of the DAA table: A and F before, A and F after. -/
def daaRows : List ((Byte × Byte) × (Byte × Byte)) :=
  [((0x9B, 0x02), (0x01, 0x13)), ((0x9A, 0x02), (0x00, 0x57)), ((0x00, 0x02), (0x00, 0x46)),
   ((0x0A, 0x02), (0x10, 0x12)), ((0x99, 0x02), (0x99, 0x86)), ((0xA0, 0x02), (0x00, 0x47)),
   ((0x12, 0x12), (0x18, 0x06)), ((0x12, 0x03), (0x72, 0x07)), ((0xFA, 0x02), (0x60, 0x17)),
   ((0xFF, 0x13), (0x65, 0x17)), ((0x3C, 0x02), (0x42, 0x16)), ((0x66, 0x13), (0xCC, 0x87)),
   ((0x9F, 0x12), (0x05, 0x17))]

theorem test_daa_rows : daaRows.map (fun r => decimalAdjust r.1.1 r.1.2) = daaRows.map (fun r => r.2) := by
  decide

/-- E5, and row 9: the high digit is read from the uncut intermediate. -/
theorem test_daa :
    sees (loaded [0x27] { State.reset with a := 0x9A })
      (fun t => (t.a, t.f, t.pc, t.cycles)) = some (0x00, 0x57, 0x0101, 4) ∧
    sees (loaded [0x27] { State.reset with a := 0xFA }) (fun t => (t.a, t.f)) = some (0x60, 0x17) := by
  decide

/-- VL2, VL4. -/
theorem test_ana :
    sees (loaded [0xA0] { State.reset with a := 0xF0, b := 0x07 })
      (fun t => (t.a, t.f, t.cycles)) = some (0x00, 0x46, 4) ∧
    sees (loaded [0xA0] { State.reset with a := 0x08, b := 0xF7 })
      (fun t => (t.a, t.f)) = some (0x00, 0x56) := by decide

/-- VL6, VL7. -/
theorem test_ani :
    sees (loaded [0xE6, 0x0F] { State.reset with a := 0x3A })
      (fun t => (t.a, t.f, t.cycles)) = some (0x0A, 0x16, 7) ∧
    sees (loaded [0xE6, 0xF0] { State.reset with a := 0x17, f := 0x03 })
      (fun t => (t.a, t.f)) = some (0x10, 0x02) := by decide

/-- VL8, VL9. -/
theorem test_xra :
    sees (loaded [0xAF] { State.reset with a := 0x5C, f := 0x13 })
      (fun t => (t.a, t.f, t.cycles)) = some (0x00, 0x46, 4) ∧
    sees (loaded [0xA8] { State.reset with a := 0xFF, b := 0x0F })
      (fun t => (t.a, t.f)) = some (0xF0, 0x86) := by decide

/-- VL10. -/
theorem test_xri :
    sees (loaded [0xEE, 0x81] { State.reset with a := 0x3B, f := 0x03 })
      (fun t => (t.a, t.f, t.cycles)) = some (0xBA, 0x82, 7) := by decide

/-- VL11, VL12. -/
theorem test_ora :
    sees (loaded [0xB1] { State.reset with a := 0x33, c := 0x0F, f := 0x13 })
      (fun t => (t.a, t.f, t.cycles)) = some (0x3F, 0x06, 4) ∧
    sees (loaded [0xB7] { State.reset with f := 0x03 }) (fun t => (t.a, t.f)) = some (0x00, 0x46) := by
  decide

/-- VL13. -/
theorem test_ori :
    sees (loaded [0xF6, 0x0F] { State.reset with a := 0xB5 })
      (fun t => (t.a, t.f, t.cycles)) = some (0xBF, 0x82, 7) := by decide

/-- VL14, VL15. -/
theorem test_rlc :
    sees (loaded [0x07] { State.reset with a := 0xF2 })
      (fun t => (t.a, t.f, t.cycles)) = some (0xE5, 0x03, 4) ∧
    sees (loaded [0x07] { State.reset with a := 0x80, f := 0xD6 })
      (fun t => (t.a, t.f)) = some (0x01, 0xD7) := by decide

/-- VL16, VL17. -/
theorem test_rrc :
    sees (loaded [0x0F] { State.reset with a := 0xF2, f := 0x03 })
      (fun t => (t.a, t.f, t.cycles)) = some (0x79, 0x02, 4) ∧
    sees (loaded [0x0F] { State.reset with a := 0x01 }) (fun t => (t.a, t.f)) = some (0x80, 0x03) := by
  decide

/-- VL18, VL19. -/
theorem test_ral :
    sees (loaded [0x17] { State.reset with a := 0xB5 })
      (fun t => (t.a, t.f, t.cycles)) = some (0x6A, 0x03, 4) ∧
    sees (loaded [0x17] { State.reset with f := 0x03 }) (fun t => (t.a, t.f)) = some (0x01, 0x02) := by
  decide

/-- VL20, VL21. -/
theorem test_rar :
    sees (loaded [0x1F] { State.reset with a := 0x6A, f := 0x03 })
      (fun t => (t.a, t.f, t.cycles)) = some (0xB5, 0x02, 4) ∧
    sees (loaded [0x1F] { State.reset with a := 0x01 }) (fun t => (t.a, t.f)) = some (0x00, 0x03) := by
  decide

/-- VL22, VL23. -/
theorem test_cma :
    sees (loaded [0x2F] { State.reset with a := 0x51, f := 0xD7 })
      (fun t => (t.a, t.f, t.cycles)) = some (0xAE, 0xD7, 4) ∧
    sees (loaded [0x2F] { State.reset with a := 0xFF }) (fun t => (t.a, t.f)) = some (0x00, 0x02) := by
  decide

/-- VL24, VL25. -/
theorem test_cmc :
    sees (loaded [0x3F] { State.reset with f := 0x03 }) (fun t => (t.f, t.cycles)) = some (0x02, 4) ∧
    sees (loaded [0x3F] { State.reset with f := 0x42 }) (fun t => t.f) = some 0x43 := by decide

/-- VL26, VL27. -/
theorem test_stc :
    sees (loaded [0x37] State.reset) (fun t => (t.f, t.cycles)) = some (0x03, 4) ∧
    sees (loaded [0x37] { State.reset with f := 0xD7 }) (fun t => t.f) = some 0xD7 := by decide

/-- VC1. -/
theorem test_jnz :
    sees (loaded [0xC2, 0x00, 0x20] { State.reset with sp := 0x2400 })
      (fun t => (t.pc, t.sp, t.cycles)) = some (0x2000, 0x2400, 10) ∧
    sees (loaded [0xC2, 0x00, 0x20] { State.reset with sp := 0x2400, f := 0x42 })
      (fun t => (t.pc, t.sp, t.cycles)) = some (0x0103, 0x2400, 10) := by decide

/-- VC2. -/
theorem test_jz :
    sees (loaded [0xCA, 0x00, 0x20] { State.reset with sp := 0x2400 })
      (fun t => (t.pc, t.sp, t.cycles)) = some (0x0103, 0x2400, 10) ∧
    sees (loaded [0xCA, 0x00, 0x20] { State.reset with sp := 0x2400, f := 0x42 })
      (fun t => (t.pc, t.sp, t.cycles)) = some (0x2000, 0x2400, 10) := by decide

/-- VC3. -/
theorem test_jnc :
    sees (loaded [0xD2, 0x00, 0x20] { State.reset with sp := 0x2400 })
      (fun t => (t.pc, t.sp, t.cycles)) = some (0x2000, 0x2400, 10) ∧
    sees (loaded [0xD2, 0x00, 0x20] { State.reset with sp := 0x2400, f := 0x03 })
      (fun t => (t.pc, t.sp, t.cycles)) = some (0x0103, 0x2400, 10) := by decide

/-- VC4. -/
theorem test_jc :
    sees (loaded [0xDA, 0x00, 0x20] { State.reset with sp := 0x2400 })
      (fun t => (t.pc, t.sp, t.cycles)) = some (0x0103, 0x2400, 10) ∧
    sees (loaded [0xDA, 0x00, 0x20] { State.reset with sp := 0x2400, f := 0x03 })
      (fun t => (t.pc, t.sp, t.cycles)) = some (0x2000, 0x2400, 10) := by decide

/-- VC5. -/
theorem test_jpo :
    sees (loaded [0xE2, 0x00, 0x20] { State.reset with sp := 0x2400 })
      (fun t => (t.pc, t.sp, t.cycles)) = some (0x2000, 0x2400, 10) ∧
    sees (loaded [0xE2, 0x00, 0x20] { State.reset with sp := 0x2400, f := 0x06 })
      (fun t => (t.pc, t.sp, t.cycles)) = some (0x0103, 0x2400, 10) := by decide

/-- VC6. -/
theorem test_jpe :
    sees (loaded [0xEA, 0x00, 0x20] { State.reset with sp := 0x2400 })
      (fun t => (t.pc, t.sp, t.cycles)) = some (0x0103, 0x2400, 10) ∧
    sees (loaded [0xEA, 0x00, 0x20] { State.reset with sp := 0x2400, f := 0x06 })
      (fun t => (t.pc, t.sp, t.cycles)) = some (0x2000, 0x2400, 10) := by decide

/-- VC7. -/
theorem test_jp :
    sees (loaded [0xF2, 0x00, 0x20] { State.reset with sp := 0x2400 })
      (fun t => (t.pc, t.sp, t.cycles)) = some (0x2000, 0x2400, 10) ∧
    sees (loaded [0xF2, 0x00, 0x20] { State.reset with sp := 0x2400, f := 0x82 })
      (fun t => (t.pc, t.sp, t.cycles)) = some (0x0103, 0x2400, 10) := by decide

/-- VC8. -/
theorem test_jm :
    sees (loaded [0xFA, 0x00, 0x20] { State.reset with sp := 0x2400 })
      (fun t => (t.pc, t.sp, t.cycles)) = some (0x0103, 0x2400, 10) ∧
    sees (loaded [0xFA, 0x00, 0x20] { State.reset with sp := 0x2400, f := 0x82 })
      (fun t => (t.pc, t.sp, t.cycles)) = some (0x2000, 0x2400, 10) := by decide

/-- VC9. -/
theorem test_cnz :
    sees (loaded [0xC4, 0x00, 0x20] { State.reset with sp := 0x2400 })
      (fun t => (t.pc, t.sp, memRead t 0x23FE, memRead t 0x23FF, t.cycles)) = some (0x2000, 0x23FE, 0x03, 0x01, 17) ∧
    sees (loaded [0xC4, 0x00, 0x20] { State.reset with sp := 0x2400, f := 0x42 })
      (fun t => (t.pc, t.sp, memRead t 0x23FE, memRead t 0x23FF, t.cycles)) = some (0x0103, 0x2400, 0x00, 0x00, 11) := by
  decide

/-- VC10. -/
theorem test_cz :
    sees (loaded [0xCC, 0x00, 0x20] { State.reset with sp := 0x2400 })
      (fun t => (t.pc, t.sp, memRead t 0x23FE, memRead t 0x23FF, t.cycles)) = some (0x0103, 0x2400, 0x00, 0x00, 11) ∧
    sees (loaded [0xCC, 0x00, 0x20] { State.reset with sp := 0x2400, f := 0x42 })
      (fun t => (t.pc, t.sp, memRead t 0x23FE, memRead t 0x23FF, t.cycles)) = some (0x2000, 0x23FE, 0x03, 0x01, 17) := by
  decide

/-- VC11. -/
theorem test_cnc :
    sees (loaded [0xD4, 0x00, 0x20] { State.reset with sp := 0x2400 })
      (fun t => (t.pc, t.sp, memRead t 0x23FE, memRead t 0x23FF, t.cycles)) = some (0x2000, 0x23FE, 0x03, 0x01, 17) ∧
    sees (loaded [0xD4, 0x00, 0x20] { State.reset with sp := 0x2400, f := 0x03 })
      (fun t => (t.pc, t.sp, memRead t 0x23FE, memRead t 0x23FF, t.cycles)) = some (0x0103, 0x2400, 0x00, 0x00, 11) := by
  decide

/-- VC12. -/
theorem test_cc :
    sees (loaded [0xDC, 0x00, 0x20] { State.reset with sp := 0x2400 })
      (fun t => (t.pc, t.sp, memRead t 0x23FE, memRead t 0x23FF, t.cycles)) = some (0x0103, 0x2400, 0x00, 0x00, 11) ∧
    sees (loaded [0xDC, 0x00, 0x20] { State.reset with sp := 0x2400, f := 0x03 })
      (fun t => (t.pc, t.sp, memRead t 0x23FE, memRead t 0x23FF, t.cycles)) = some (0x2000, 0x23FE, 0x03, 0x01, 17) := by
  decide

/-- VC13. -/
theorem test_cpo :
    sees (loaded [0xE4, 0x00, 0x20] { State.reset with sp := 0x2400 })
      (fun t => (t.pc, t.sp, memRead t 0x23FE, memRead t 0x23FF, t.cycles)) = some (0x2000, 0x23FE, 0x03, 0x01, 17) ∧
    sees (loaded [0xE4, 0x00, 0x20] { State.reset with sp := 0x2400, f := 0x06 })
      (fun t => (t.pc, t.sp, memRead t 0x23FE, memRead t 0x23FF, t.cycles)) = some (0x0103, 0x2400, 0x00, 0x00, 11) := by
  decide

/-- VC14. -/
theorem test_cpe :
    sees (loaded [0xEC, 0x00, 0x20] { State.reset with sp := 0x2400 })
      (fun t => (t.pc, t.sp, memRead t 0x23FE, memRead t 0x23FF, t.cycles)) = some (0x0103, 0x2400, 0x00, 0x00, 11) ∧
    sees (loaded [0xEC, 0x00, 0x20] { State.reset with sp := 0x2400, f := 0x06 })
      (fun t => (t.pc, t.sp, memRead t 0x23FE, memRead t 0x23FF, t.cycles)) = some (0x2000, 0x23FE, 0x03, 0x01, 17) := by
  decide

/-- VC15. -/
theorem test_cp :
    sees (loaded [0xF4, 0x00, 0x20] { State.reset with sp := 0x2400 })
      (fun t => (t.pc, t.sp, memRead t 0x23FE, memRead t 0x23FF, t.cycles)) = some (0x2000, 0x23FE, 0x03, 0x01, 17) ∧
    sees (loaded [0xF4, 0x00, 0x20] { State.reset with sp := 0x2400, f := 0x82 })
      (fun t => (t.pc, t.sp, memRead t 0x23FE, memRead t 0x23FF, t.cycles)) = some (0x0103, 0x2400, 0x00, 0x00, 11) := by
  decide

/-- VC16. -/
theorem test_cm :
    sees (loaded [0xFC, 0x00, 0x20] { State.reset with sp := 0x2400 })
      (fun t => (t.pc, t.sp, memRead t 0x23FE, memRead t 0x23FF, t.cycles)) = some (0x0103, 0x2400, 0x00, 0x00, 11) ∧
    sees (loaded [0xFC, 0x00, 0x20] { State.reset with sp := 0x2400, f := 0x82 })
      (fun t => (t.pc, t.sp, memRead t 0x23FE, memRead t 0x23FF, t.cycles)) = some (0x2000, 0x23FE, 0x03, 0x01, 17) := by
  decide

/-- VC17. -/
theorem test_rnz :
    sees (loaded [0xC0] { (withBytes 0x23FE [0x03, 0x01]) with sp := 0x23FE })
      (fun t => (t.pc, t.sp, t.cycles)) = some (0x0103, 0x2400, 11) ∧
    sees (loaded [0xC0] { (withBytes 0x23FE [0x03, 0x01]) with sp := 0x23FE, f := 0x42 })
      (fun t => (t.pc, t.sp, t.cycles)) = some (0x0101, 0x23FE, 5) := by decide

/-- VC18. -/
theorem test_rz :
    sees (loaded [0xC8] { (withBytes 0x23FE [0x03, 0x01]) with sp := 0x23FE })
      (fun t => (t.pc, t.sp, t.cycles)) = some (0x0101, 0x23FE, 5) ∧
    sees (loaded [0xC8] { (withBytes 0x23FE [0x03, 0x01]) with sp := 0x23FE, f := 0x42 })
      (fun t => (t.pc, t.sp, t.cycles)) = some (0x0103, 0x2400, 11) := by decide

/-- VC19. -/
theorem test_rnc :
    sees (loaded [0xD0] { (withBytes 0x23FE [0x03, 0x01]) with sp := 0x23FE })
      (fun t => (t.pc, t.sp, t.cycles)) = some (0x0103, 0x2400, 11) ∧
    sees (loaded [0xD0] { (withBytes 0x23FE [0x03, 0x01]) with sp := 0x23FE, f := 0x03 })
      (fun t => (t.pc, t.sp, t.cycles)) = some (0x0101, 0x23FE, 5) := by decide

/-- VC20. -/
theorem test_rc :
    sees (loaded [0xD8] { (withBytes 0x23FE [0x03, 0x01]) with sp := 0x23FE })
      (fun t => (t.pc, t.sp, t.cycles)) = some (0x0101, 0x23FE, 5) ∧
    sees (loaded [0xD8] { (withBytes 0x23FE [0x03, 0x01]) with sp := 0x23FE, f := 0x03 })
      (fun t => (t.pc, t.sp, t.cycles)) = some (0x0103, 0x2400, 11) := by decide

/-- VC21. -/
theorem test_rpo :
    sees (loaded [0xE0] { (withBytes 0x23FE [0x03, 0x01]) with sp := 0x23FE })
      (fun t => (t.pc, t.sp, t.cycles)) = some (0x0103, 0x2400, 11) ∧
    sees (loaded [0xE0] { (withBytes 0x23FE [0x03, 0x01]) with sp := 0x23FE, f := 0x06 })
      (fun t => (t.pc, t.sp, t.cycles)) = some (0x0101, 0x23FE, 5) := by decide

/-- VC22. -/
theorem test_rpe :
    sees (loaded [0xE8] { (withBytes 0x23FE [0x03, 0x01]) with sp := 0x23FE })
      (fun t => (t.pc, t.sp, t.cycles)) = some (0x0101, 0x23FE, 5) ∧
    sees (loaded [0xE8] { (withBytes 0x23FE [0x03, 0x01]) with sp := 0x23FE, f := 0x06 })
      (fun t => (t.pc, t.sp, t.cycles)) = some (0x0103, 0x2400, 11) := by decide

/-- VC23. -/
theorem test_rp :
    sees (loaded [0xF0] { (withBytes 0x23FE [0x03, 0x01]) with sp := 0x23FE })
      (fun t => (t.pc, t.sp, t.cycles)) = some (0x0103, 0x2400, 11) ∧
    sees (loaded [0xF0] { (withBytes 0x23FE [0x03, 0x01]) with sp := 0x23FE, f := 0x82 })
      (fun t => (t.pc, t.sp, t.cycles)) = some (0x0101, 0x23FE, 5) := by decide

/-- VC24. -/
theorem test_rm :
    sees (loaded [0xF8] { (withBytes 0x23FE [0x03, 0x01]) with sp := 0x23FE })
      (fun t => (t.pc, t.sp, t.cycles)) = some (0x0101, 0x23FE, 5) ∧
    sees (loaded [0xF8] { (withBytes 0x23FE [0x03, 0x01]) with sp := 0x23FE, f := 0x82 })
      (fun t => (t.pc, t.sp, t.cycles)) = some (0x0103, 0x2400, 11) := by decide

/-- VC25, VC26. -/
theorem test_jmp :
    sees (loaded [0xC3, 0x34, 0x12] { State.reset with sp := 0x2400 })
      (fun t => (t.pc, t.sp, t.cycles)) = some (0x1234, 0x2400, 10) ∧
    sees (loaded [0xCB, 0x34, 0x12] State.reset) (fun t => (t.pc, t.cycles)) = some (0x1234, 10) := by
  decide

/-- VC27: the operand bytes of a JMP at the top of memory are fetched from 0xFFFF and 0x0000. -/
theorem test_jmp_across_top :
    sees { withBytes 0xFFFE [0xC3, 0x34, 0x12] with pc := 0xFFFE } (fun t => t.pc) = some 0x1234 := by decide

/-- VC28, VC29. -/
theorem test_call :
    sees (loaded [0xCD, 0x00, 0x20] { State.reset with sp := 0x2400 })
      (fun t => (t.pc, t.sp, memRead t 0x23FE, memRead t 0x23FF, t.cycles)) = some (0x2000, 0x23FE, 0x03, 0x01, 17) ∧
    sees (loaded [0xED, 0x00, 0x20] { State.reset with sp := 0x2400 })
      (fun t => (t.pc, t.sp, memRead t 0x23FE, memRead t 0x23FF, t.cycles)) = some (0x2000, 0x23FE, 0x03, 0x01, 17) := by
  decide

/-- VC31: the bytes were fetched before the push. -/
theorem test_call_overwrites_its_operand :
    sees (loaded [0xCD, 0x00, 0x02] { State.reset with sp := 0x0103 })
      (fun t => (t.pc, t.sp, memRead t 0x0101, memRead t 0x0102)) = some (0x0200, 0x0101, 0x03, 0x01) := by
  decide

/-- E8: the alias 0xDD of CALL on the machine as created. -/
theorem test_alias_dd_is_call :
    sees (withBytes 0x0000 [0xDD]) (fun t => (t.pc, t.sp, memRead t 0xFFFE, memRead t 0xFFFF, t.cycles)) =
      some (0x0000, 0xFFFE, 0x03, 0x00, 17) := by decide

/-- VC32, VC34. -/
theorem test_ret :
    sees (loaded [0xC9] { (withBytes 0x23FE [0x03, 0x01]) with sp := 0x23FE })
      (fun t => (t.pc, t.sp, t.cycles)) = some (0x0103, 0x2400, 10) ∧
    sees (loaded [0xC9] { (withBytes 0xFFFF [0x78, 0x56]) with sp := 0xFFFF })
      (fun t => (t.pc, t.sp)) = some (0x5678, 0x0001) := by decide

/-- VC35 (RST 7), VC36. -/
theorem test_rst :
    sees (loaded [0xFF] { State.reset with sp := 0x2400 })
      (fun t => (t.pc, t.sp, memRead t 0x23FE, memRead t 0x23FF, t.cycles)) = some (0x0038, 0x23FE, 0x01, 0x01, 11) ∧
    sees (loaded [0xDF] { State.reset with sp := 0x0001 })
      (fun t => (t.pc, t.sp, memRead t 0xFFFF, memRead t 0x0000)) = some (0x0018, 0xFFFF, 0x01, 0x01) := by
  decide

/-- VC37. -/
theorem test_pchl :
    sees (loaded [0xE9] { State.reset with h := 0x41, l := 0x3E, sp := 0x2400 })
      (fun t => (t.pc, t.sp, t.cycles)) = some (0x413E, 0x2400, 5) := by decide

/-- VC38. -/
theorem test_hlt :
    sees (loaded [0x76] { State.reset with h := 0x20, l := 0x00, inte := true })
      (fun t => (t.halted, t.pc, t.inte, t.cycles)) = some (true, 0x0101, true, 7) := by decide

/-- VC39: nothing is fetched. -/
theorem test_idle_step :
    sees (loaded [0x3C] { State.reset with halted := true })
      (fun t => (t.halted, t.pc, t.a, t.cycles)) = some (true, 0x0100, 0x00, 4) := by decide

/-- VC40, VC41. -/
theorem test_ei :
    sees (loaded [0xFB] State.reset) (fun t => (t.inte, t.cycles)) = some (true, 4) ∧
    sees (loaded [0xFB] { State.reset with inte := true }) (fun t => t.inte) = some true := by decide

/-- VC42. -/
theorem test_di :
    sees (loaded [0xF3] { State.reset with inte := true })
      (fun t => (t.inte, t.pc, t.cycles)) = some (false, 0x0101, 4) := by decide

/-- VC43. -/
theorem test_nop :
    sees (loaded [0x00] { State.reset with a := 0x11, f := 0xD7 })
      (fun t => (t.a, t.f, t.pc, t.cycles)) = some (0x11, 0xD7, 0x0101, 4) ∧
    sees (loaded [0x38] { State.reset with a := 0x11, f := 0xD7 })
      (fun t => (t.a, t.f, t.pc, t.cycles)) = some (0x11, 0xD7, 0x0101, 4) := by decide

/-- VS3, VS4. -/
theorem test_push :
    sees (loaded [0xE5] { State.reset with h := 0xAB, l := 0xCD, sp := 0x0001 })
      (fun t => (t.sp, memRead t 0xFFFF, memRead t 0x0000, t.cycles)) = some (0xFFFF, 0xCD, 0xAB, 11) ∧
    sees (loaded [0xF5] { State.reset with a := 0xFF, f := 0xD7, sp := 0x2400 })
      (fun t => (t.sp, memRead t 0x23FE, memRead t 0x23FF)) = some (0x23FE, 0xD7, 0xFF) := by decide

/-- VS7, VS9. -/
theorem test_pop :
    sees (loaded [0xE1] { (withBytes 0x1239 [0x3D, 0x93]) with sp := 0x1239 })
      (fun t => (t.h, t.l, t.sp, t.cycles)) = some (0x93, 0x3D, 0x123B, 10) ∧
    sees (loaded [0xF1] { (withBytes 0x2C00 [0xFF, 0xC3]) with sp := 0x2C00 })
      (fun t => (t.a, t.f, t.sp)) = some (0xC3, 0xD7, 0x2C02) := by decide

/-- VS13, VS14. -/
theorem test_xthl :
    sees (loaded [0xE3] { (withBytes 0x10AD [0xF0, 0x0D]) with sp := 0x10AD, h := 0x0B, l := 0x3C })
      (fun t => (hl t, memRead t 0x10AD, memRead t 0x10AE, t.sp, t.cycles)) = some (0x0DF0, 0x3C, 0x0B, 0x10AD, 18) ∧
    sees (loaded [0xE3] { (withBytes 0xFFFF [0xAA, 0xBB]) with sp := 0xFFFF, h := 0x12, l := 0x34 })
      (fun t => (hl t, memRead t 0xFFFF, memRead t 0x0000)) = some (0xBBAA, 0x34, 0x12) := by decide

/-- VS15. -/
theorem test_sphl :
    sees (loaded [0xF9] { State.reset with h := 0x50, l := 0x6C })
      (fun t => (t.sp, hl t, t.cycles)) = some (0x506C, 0x506C, 5) := by decide

/-! ### Ports: the two configurations and the answer are arguments (log entries 3 and 4) -/

/-- VP1, VP2. -/
theorem test_port_read :
    portReadWith false 0x5A 0x10 State.reset = (0xFF, State.reset) ∧
    (portReadWith true 0x5A 0x10 State.reset).1 = 0x5A ∧
    (portReadWith true 0x5A 0x10 State.reset).2.portLog = [.read 0x10 0x5A] := by decide

/-- VP4, VP5. -/
theorem test_port_write :
    (portWriteWith true 0x01 0x33 State.reset).portLog = [.write 0x01 0x33] ∧
    portWriteWith false 0x01 0x33 State.reset = State.reset := by decide

/-- IN keeps F, moves PC past its two bytes and reports 10 cycles, whatever the port answers. -/
theorem test_in_frame (port : Byte) (s : State) :
    exec (.inPort port) s = .next { (portRead port s).2 with a := (portRead port s).1, cycles := 10 } := rfl

/-- OUT hands A over and reports 10 cycles. -/
theorem test_out_frame (port : Byte) (s : State) :
    exec (.outPort port) s = .next { portWrite port s.a s with cycles := 10 } := rfl

/-! ### Memory, reset, the load of one instruction -/

/-- A written memory stays in its one form, and the byte an unlisted address reads as is not listed. -/
theorem test_memory_canonical :
    ((Memory.write [] 5 0xAA).write 3 0xBB) = [(3, 0xBB), (5, 0xAA)] ∧
    (Memory.write [(3, 0xBB), (5, 0xAA)] 3 0x00) = [(5, 0xAA)] ∧
    (Memory.write [(3, 0xBB), (5, 0xAA)] 5 0xCC) = [(3, 0xBB), (5, 0xCC)] := by decide

/-- VR1: the machine as created runs a NOP. -/
theorem test_creation_runs_nop :
    sees State.reset (fun t => (t.pc, t.cycles, t.mem)) = some (0x0001, 4, []) := by decide

/-- VR2: reset clears the halt and the registers and keeps memory. -/
theorem test_reset_keeps_memory :
    hostReset { withBytes 0x0300 [0xDE] with d := 0x03, f := 0x46, pc := 0x0116, halted := true, inte := true } =
      withBytes 0x0300 [0xDE] := by decide

/-- VR3, its third step: the byte stored at 0x0105 is the HLT the next fetch reads. -/
theorem test_stored_byte_is_fetched :
    sees { loaded [0x3E, 0x76, 0x32, 0x05, 0x01, 0x76, 0x3C] { State.reset with a := 0x76 } with pc := 0x0105 }
      (fun t => (t.halted, t.pc, t.cycles)) = some (true, 0x0106, 7) := by decide

/-- The word of MVI A,0x34 placed where the step fetches runs as the first instruction. -/
theorem test_fetch_word_runs :
    sees (State.reset.withFetchWord 16 0x343E) (fun t => (t.a, t.pc)) = some (0x34, 0x0002) := by decide

/-- E1: the rows 0x and 7x of the source's parity table. -/
theorem test_parity :
    ((List.range 16).map fun n => parity (BitVec.ofNat 8 n)) =
      [true, false, false, true, false, true, true, false, false, true, true, false, true, false, false, true] ∧
    ((List.range 16).map fun n => parity (BitVec.ofNat 8 (0x70 + n))) =
      [false, true, true, false, true, false, false, true, true, false, false, true, false, true, true, false] := by
  decide

/-! ### The transactions a step presents, in R57's order -/

/-- XTHL: the opcode, both reads at SP and SP + 1, then both writes (R57, R223; VS13). -/
theorem test_bus_xthl :
    sees (loaded [0xE3] { (withBytes 0x10AD [0xF0, 0x0D]) with sp := 0x10AD, h := 0x0B, l := 0x3C }) (fun t => t.bus) =
      some [.memRead 0x0100 0xE3, .memRead 0x10AD 0xF0, .memRead 0x10AE 0x0D, .memWrite 0x10AD 0x3C,
        .memWrite 0x10AE 0x0B] := by decide

/-- CALL: three bytes, lower address first, then the return address at the new SP, low byte first (R53, R54; VC28). -/
theorem test_bus_call :
    sees (loaded [0xCD, 0x00, 0x20] { State.reset with sp := 0x2400 }) (fun t => t.bus) =
      some [.memRead 0x0100 0xCD, .memRead 0x0101 0x00, .memRead 0x0102 0x20, .memWrite 0x23FE 0x03,
        .memWrite 0x23FF 0x01] := by decide

/-- A call not taken fetches its three bytes and no more (R53, R192). -/
theorem test_bus_call_not_taken :
    sees (loaded [0xCC, 0x00, 0x20] { State.reset with sp := 0x2400 }) (fun t => t.bus) =
      some [.memRead 0x0100 0xCC, .memRead 0x0101 0x00, .memRead 0x0102 0x20] := by decide

/-- INR M reads one byte and then writes one byte at the same address (R55). -/
theorem test_bus_inr_m :
    sees (loaded [0x34] { (withBytes 0x2000 [0x7F]) with h := 0x20 }) (fun t => t.bus) =
      some [.memRead 0x0100 0x34, .memRead 0x2000 0x7F, .memWrite 0x2000 0x80] := by decide

/-- LHLD at the top of memory: the second byte is read from 0x0000 (R51, R57; VD13). -/
theorem test_bus_lhld_wraps :
    sees (loaded [0x2A, 0xFF, 0xFF] (withBytes 0xFFFF [0x34, 0x12])) (fun t => t.bus) =
      some [.memRead 0x0100 0x2A, .memRead 0x0101 0xFF, .memRead 0x0102 0xFF, .memRead 0xFFFF 0x34,
        .memRead 0x0000 0x12] := by decide

/-- A port access is presented after what went before it (R57, R234); an absent capability presents nothing (R230). -/
theorem test_bus_port :
    (portReadWith true 0x5A 0x10 { State.reset with bus := [.memRead 0x0101 0x10] }).2.bus =
      [.memRead 0x0101 0x10, .port (.read 0x10 0x5A)] ∧
    (portReadWith false 0x5A 0x10 State.reset).2.bus = [] ∧
    (portWriteWith true 0x01 0x33 State.reset).bus = [.port (.write 0x01 0x33)] := by decide

/-- The idle step presents nothing (R214). -/
theorem test_bus_idle :
    sees (loaded [0x34] { State.reset with halted := true, bus := [.memRead 0x00FF 0x76] }) (fun t => t.bus) =
      some [] := by decide

/-- A memory that answers otherwise than with the stored byte is not what a step meets (R64). -/
theorem test_accepts :
    Accepts [] [.memWrite 0x2000 0x80, .memRead 0x2000 0x80] [(0x2000, 0x80)] ∧
    ¬Accepts [] [.memRead 0x2000 0x80, .memWrite 0x2000 0x80] [(0x2000, 0x80)] := by
  simp [Accepts, Memory.read, Memory.write, Memory.erase, Memory.insert, unlistedByte]

/-! ### Cases that meet the statements' hypotheses -/

/-- DecodeEncodeRoundTrip, at the ends of its operands. -/
theorem witness_decodeEncodeRoundTrip :
    (Instr.mov .m .a).wellFormed = true ∧ (Instr.lxi .sp 0xFFFF).wellFormed = true ∧
    (Instr.rst 7).wellFormed = true := by decide

/-- EncodeDecodeCanonicalBytes, for each length of an instruction. -/
theorem witness_encodeDecodeCanonicalBytes :
    ((0xCD : Byte) ∉ aliasOpcodes ∧ decode [0xCD, 0x00, 0x20, 0x76] = .ok (.call 0x2000) [0x76]) ∧
    ((0xDB : Byte) ∉ aliasOpcodes ∧ decode [0xDB, 0x10] = .ok (.inPort 0x10) []) ∧
    ((0x76 : Byte) ∉ aliasOpcodes ∧ decode [0x76] = .ok .hlt []) := by decide

/-- StepRunsDecodedInstruction and PcAdvancesPastInstruction, the instruction lying across the top of memory. -/
theorem witness_stepRunsDecodedInstruction :
    let s := { withBytes 0xFFFF [0x3A, 0x00, 0x20] with pc := 0xFFFF }
    s.halted = false ∧
    decode [memRead s s.pc, memRead s (s.pc + 1), memRead s (s.pc + 2)] = .ok (.lda 0x2000) [] ∧
    mayTransfer (.lda 0x2000) = false := by decide

/-- IdleStepChangesNothing. -/
theorem witness_idleStepChangesNothing : ({ State.reset with halted := true } : State).halted = true := by decide

/-- HostResetKeepsMemory: memory begins with a JMP. -/
theorem witness_hostResetKeepsMemory :
    let s := withBytes 0x0000 [0xC3, 0x00, 0x01]
    decode [memRead s 0x0000, memRead s 0x0001, memRead s 0x0002] = .ok (.jmp 0x0100) [] := by decide

/-- EveryStepKeepsInvariant: a state with memory in use, at an instruction that stores. -/
theorem witness_everyStepKeepsInvariant :
    (loaded [0x77] { State.reset with a := 0x3C, h := 0x20 }).Inv ∧
    sees (loaded [0x77] { State.reset with a := 0x3C, h := 0x20 }) (fun t => decide t.Inv) = some true := by decide

/-- FlagWritesKeepFixedBits: the places beside a flag's own, at both ends. -/
theorem witness_flagWritesKeepFixedBits :
    (0 < 8 ∧ 0 ≠ Flag.s.pos) ∧ (7 < 8 ∧ 7 ≠ Flag.cy.pos) := by decide

/-- ByteAccessReadsLastWrite: memory in its form, in use, and two addresses. -/
theorem witness_byteAccessReadsLastWrite :
    (loaded [0x77] State.reset).mem.wf ∧ (0x0100 : Word) ≠ 0xFFFF := by decide

/-- CanonicalMemoriesDetermined: one memory reached by two ways. -/
theorem witness_canonicalMemoriesDetermined :
    Memory.wf [(5, 0xAA)] ∧ Memory.wf ((Memory.write [] 5 0x01).write 5 0xAA) ∧
    ∀ a, a < 65536 → Memory.read [(5, 0xAA)] a = ((Memory.write [] 5 0x01).write 5 0xAA).read a :=
  ⟨by decide, by decide, fun _ _ => rfl⟩

/-- MovCopiesOneByte: one operand is M, not both. -/
theorem witness_movCopiesOneByte :
    ¬((R8.m = .m) ∧ (R8.a = .m)) ∧ ¬((R8.a = .m) ∧ (R8.m = .m)) := by decide

/-- DaaCorrectsInTwoSteps, its clause on a set CY. -/
theorem witness_daaCarryKept :
    sees (loaded [0x27] { State.reset with f := 0x03 }) (fun t => (t.a, flag .cy t.f)) = some (0x60, true) ∧
    flag .cy 0x03 = true := by decide

/-- AdcThenDaaAddsDecimalDigits: the greatest digits, and program P2's first pair. -/
theorem witness_adcThenDaaAddsDecimalDigits :
    let s := { State.reset with a := 0x99, b := 0x99, f := 0x03 }
    (IsBcd s.a ∧ IsBcd (readR8 .b s)) ∧ IsBcd 0x85 ∧ IsBcd 0x36 := by decide

/-- PopAfterPushRestores: F as created, and F with every flag set. -/
theorem witness_popAfterPushRestores : FixedBits State.reset.f ∧ FixedBits 0xD7 := by decide

/-- The alias lists of AliasOpcodesDecodeAsCanonical, CallsPushReturnAddress and HaltEnableNopPchl have members. -/
theorem witness_aliasLists :
    (0x38 : Byte) ∈ [(0x08 : Byte), 0x10, 0x18, 0x20, 0x28, 0x30, 0x38] ∧
    (0xFD : Byte) ∈ [(0xDD : Byte), 0xED, 0xFD] := by decide

/-- HaltedSetByHltAlone and InteWrittenByEiDiAlone: each case of the conclusion occurs. -/
theorem witness_flipFlopCases :
    sees (loaded [0x76] State.reset) (fun t => t.halted) = some true ∧
    sees (loaded [0xFB] { State.reset with halted := true }) (fun t => t.inte) = some false ∧
    sees (loaded [0xFB] State.reset) (fun t => t.inte) = some true ∧
    sees (loaded [0xF3] { State.reset with inte := true }) (fun t => t.inte) = some false ∧
    sees (loaded [0x00] { State.reset with inte := true }) (fun t => t.inte) = some true := by decide

/-- EveryStepPresentsItsAccesses: each of its cases, an instruction that reads and writes a word, and an idle machine. -/
theorem witness_everyStepPresentsItsAccesses :
    let s := loaded [0xE3] { (withBytes 0x10AD [0xF0, 0x0D]) with sp := 0x10AD, h := 0x0B, l := 0x3C }
    (s.halted = false ∧
      decode [memRead s s.pc, memRead s (s.pc + 1), memRead s (s.pc + 2)] = .ok .xthl [0x00, 0x00] ∧
      (dataReads .xthl s).length = 2 ∧ (dataWrites .xthl s).length = 2) ∧
    ({ s with halted := true } : State).halted = true := by decide

end Sys2Proof.Machine.Tests
end

/-! ### The step: it always has a next state, and it runs the instruction decoded at PC (spec/00_scope.md R2, R4) -/

namespace Sys2Proof.Machine

/-- Each arm of `exec` answers `.next` outright: none tests anything before it has its next state (R4). -/
theorem exec_eq_next (i : Instr) (s : State) : ∃ t, exec i s = .next t := by
  cases i <;> exact ⟨_, rfl⟩

/-- Both kinds of step have a next state: the idle step, and the step that runs an instruction (R2, R4). -/
theorem step_eq_next (s : State) : ∃ t, step s = .next t := by
  cases h : s.halted with
  | true => exact ⟨_, step_idle h⟩
  | false =>
    rw [step_running h]
    exact exec_eq_next _ _

/-- Settles O8: the step is idle or an `exec`, and every arm of `exec` answers a next state. -/
theorem noStepFaults : Obligations.NoStepFaults :=
  ⟨step_eq_next, exec_eq_next⟩

/-- Settles O6: what `decode` answers for the three bytes at PC is what the step fetches, and the length of that
instruction is the one its opcode alone gives. -/
theorem stepRunsDecodedInstruction : Obligations.StepRunsDecodedInstruction := by
  intro s i rest running decoded
  rw [decode_three] at decoded
  obtain ⟨rfl, -⟩ := DecodeResult.ok.inj decoded
  rw [step_running running, decodeOp_length]

end Sys2Proof.Machine

/-! ### The state: what every step keeps, and the views and flags of its registers (spec/10_state.md) -/

namespace Sys2Proof.Machine

/-- What a step can do: idle with `halted = 1`, else run the instruction of the bytes at PC (R2, R214). -/
theorem step_cases {s t : State} (ran : step s = .next t) :
    (s.halted = true ∧ t = { s with cycles := 4, bus := [] }) ∨
    (s.halted = false ∧
      exec (decodeOp (memRead s s.pc) (memRead s (s.pc + 1)) (memRead s (s.pc + 2)))
        { s with
          pc := s.pc + BitVec.ofNat 16 (opLength (memRead s s.pc))
          bus := fetchReads s (opLength (memRead s s.pc)) } = .next t) := by
  rcases Bool.eq_false_or_eq_true s.halted with idle | running
  · rw [step_idle idle] at ran
    cases ran
    exact .inl ⟨idle, rfl⟩
  · exact .inr ⟨running, (step_running running).symm.trans ran⟩

/-! #### The fixed bits of F: every function that writes single flags leaves them (R27) -/

theorem fixedBits_congr {old new : Byte} (same : new &&& 0x2A = old &&& 0x2A) : FixedBits new ↔ FixedBits old := by
  rw [FixedBits, same]

theorem fixedBits_iff_of_flagsAre {old new : Byte} {sign zero aux par carry : Bool}
    (are : FlagsAre old new sign zero aux par carry) : FixedBits new ↔ FixedBits old := by
  obtain ⟨-, -, -, -, -, others⟩ := are
  exact fixedBits_congr others

@[simp] theorem setFlag_fixedBits (x : Flag) (v : Bool) (f : Byte) : FixedBits (setFlag x v f) ↔ FixedBits f :=
  fixedBits_congr (setFlag_fixed x v f)

@[simp] theorem add8_fixedBits (a b : Byte) (cin : Bool) (f : Byte) : FixedBits (add8 a b cin f).2 ↔ FixedBits f :=
  fixedBits_iff_of_flagsAre (add8_spec a b cin f).2

@[simp] theorem sub8_fixedBits (a b : Byte) (bin : Bool) (f : Byte) : FixedBits (sub8 a b bin f).2 ↔ FixedBits f :=
  fixedBits_iff_of_flagsAre (sub8_spec a b bin f).2

@[simp] theorem inc8_fixedBits (v f : Byte) : FixedBits (inc8 v f).2 ↔ FixedBits f :=
  fixedBits_iff_of_flagsAre (inc8_spec v f).2

@[simp] theorem dec8_fixedBits (v f : Byte) : FixedBits (dec8 v f).2 ↔ FixedBits f :=
  fixedBits_iff_of_flagsAre (dec8_spec v f).2

@[simp] theorem logic8_fixedBits (op : LogicOp) (a b f : Byte) : FixedBits (logic8 op a b f).2 ↔ FixedBits f :=
  fixedBits_iff_of_flagsAre (logic8_spec op a b f)

@[simp] theorem decimalAdjust_fixedBits (a f : Byte) : FixedBits (decimalAdjust a f).2 ↔ FixedBits f := by
  obtain ⟨_, _, -, -, -, are⟩ := decimalAdjust_spec a f
  exact fixedBits_iff_of_flagsAre are

@[simp] theorem add16_fixedBits (x y : Word) (f : Byte) : FixedBits (add16 x y f).2 ↔ FixedBits f :=
  setFlag_fixedBits ..

@[simp] theorem rotateLeft_fixedBits (a f : Byte) : FixedBits (rotateLeft a f).2 ↔ FixedBits f :=
  setFlag_fixedBits ..

@[simp] theorem rotateRight_fixedBits (a f : Byte) : FixedBits (rotateRight a f).2 ↔ FixedBits f :=
  setFlag_fixedBits ..

@[simp] theorem rotateLeftThroughCarry_fixedBits (a f : Byte) :
    FixedBits (rotateLeftThroughCarry a f).2 ↔ FixedBits f :=
  setFlag_fixedBits ..

@[simp] theorem rotateRightThroughCarry_fixedBits (a f : Byte) :
    FixedBits (rotateRightThroughCarry a f).2 ↔ FixedBits f :=
  setFlag_fixedBits ..

/-- PSW alone loads F, and its load applies the fixed bits (R27, R30). -/
theorem writeStackPair_fixedBits {s : State} (p : StackPair) (w : Word) (fixed : FixedBits s.f) :
    FixedBits (writeStackPair p w s).f := by
  cases p with
  | psw => exact loadFlags_fixed (loByte w)
  | bc | de | hl => exact fixed

/-! #### Every step keeps the invariant -/

/-- POP may load the whole of F; every other instruction writes single flags or none. -/
theorem exec_fixedBits {i : Instr} {s t : State} (ran : exec i s = .next t) (fixed : FixedBits s.f) :
    FixedBits t.f := by
  cases i with
  | pop p =>
    cases ran
    exact writeStackPair_fixedBits p _ fixed
  | _ =>
    cases ran
    simpa [readOperand_eq, busReadWord_eq] using fixed

/-- Each store goes through a write that keeps the canonical form; every other instruction leaves memory. -/
theorem exec_mem_wf {i : Instr} {s t : State} (ran : exec i s = .next t) (canonical : s.mem.wf) : t.mem.wf := by
  cases i with
  | mov dst _ | inr dst | dcr dst =>
    cases ran
    exact writeOperand_wf dst _ (by simpa [readOperand_eq] using canonical)
  | mvi dst _ =>
    cases ran
    exact writeOperand_wf dst _ canonical
  | sta _ | stax _ =>
    cases ran
    exact busWrite_wf _ _ canonical
  | shld _ | xthl =>
    cases ran
    exact busWriteWord_wf _ _ canonical
  | push _ | call _ | rst _ =>
    cases ran
    exact push16_wf _ canonical
  | cnz _ | cz _ | cnc _ | cc _ | cpo _ | cpe _ | cp _ | cm _ =>
    cases ran
    unfold callIf
    split
    · exact push16_wf _ canonical
    · exact canonical
  | _ =>
    cases ran
    simpa [readOperand_eq, busReadWord_eq, pop16_eq] using canonical

/-- Settles O19: the idle step touches neither F nor memory, the fetch neither, and every instruction keeps both parts
of the invariant. -/
theorem everyStepKeepsInvariant : Obligations.EveryStepKeepsInvariant := by
  rintro s t ⟨fixed, canonical⟩ ran
  rcases step_cases ran with ⟨-, rfl⟩ | ⟨-, arm⟩
  · exact ⟨fixed, canonical⟩
  · exact ⟨exec_fixedBits arm fixed, exec_mem_wf arm canonical⟩

/-- Settles O18: F is 0x02 and memory lists nothing. -/
theorem invariantHoldsAtReset : Obligations.InvariantHoldsAtReset :=
  ⟨by decide, reset_mem_wf⟩

/-! #### Which opcode selects HLT, EI and DI -/

/-- A one-byte instruction is selected by its opcode alone, whatever bytes follow. -/
theorem decodeOp_eq_iff_of_length_one {i : Instr} (one : i.length = 1) (op b2 b3 : Byte) :
    decodeOp op b2 b3 = i ↔ decodeOp op 0 0 = i := by
  rcases decodeOp_uses op with ⟨-, alone⟩ | ⟨len, -⟩ | len
  · rw [alone b2 b3]
  all_goals
    have never (c2 c3 : Byte) : decodeOp op c2 c3 ≠ i := by
      rintro rfl
      rw [decodeOp_length, len] at one
      contradiction
    simp [never]

theorem decodeOp_eq_hlt_iff (op b2 b3 : Byte) : decodeOp op b2 b3 = .hlt ↔ op = 0x76 := by
  rw [decodeOp_eq_iff_of_length_one rfl]
  revert op
  decide

theorem decodeOp_eq_ei_iff (op b2 b3 : Byte) : decodeOp op b2 b3 = .ei ↔ op = 0xFB := by
  rw [decodeOp_eq_iff_of_length_one rfl]
  revert op
  decide

theorem decodeOp_eq_di_iff (op b2 b3 : Byte) : decodeOp op b2 b3 = .di ↔ op = 0xF3 := by
  rw [decodeOp_eq_iff_of_length_one rfl]
  revert op
  decide

/-! #### The flip-flops -/

theorem exec_halted {i : Instr} {s t : State} (ran : exec i s = .next t) :
    t.halted = (s.halted || decide (i = .hlt)) := by
  cases i with
  | hlt =>
    cases ran
    simp
  | _ =>
    cases ran
    simp [readOperand_eq, busReadWord_eq, pop16_eq]

theorem exec_inte {i : Instr} {s t : State} (ran : exec i s = .next t) :
    t.inte = if i = .ei then true else if i = .di then false else s.inte := by
  cases i with
  | ei | di =>
    cases ran
    rfl
  | _ =>
    cases ran
    simp [readOperand_eq, busReadWord_eq, pop16_eq]

/-- Settles O9: of the instructions HLT alone writes `halted`, and its one opcode is 0x76 (R33, R213). -/
theorem haltedSetByHltAlone : Obligations.HaltedSetByHltAlone := by
  intro s
  obtain ⟨t, ran⟩ := step_eq_next s
  refine ⟨t, ran, ?_⟩
  rcases step_cases ran with ⟨idle, rfl⟩ | ⟨running, arm⟩
  · simp [idle]
  · simp [exec_halted arm, running, decodeOp_eq_hlt_iff, beq_eq_decide]

/-- Settles O10: of the instructions EI and DI alone write `inte`, and their opcodes are 0xFB and 0xF3 (R34). -/
theorem inteWrittenByEiDiAlone : Obligations.InteWrittenByEiDiAlone := by
  intro s
  obtain ⟨t, ran⟩ := step_eq_next s
  refine ⟨t, ran, ?_⟩
  rcases step_cases ran with ⟨idle, rfl⟩ | ⟨running, arm⟩
  · simp [idle]
  · simp [exec_inte arm, running, decodeOp_eq_ei_iff, decodeOp_eq_di_iff]

/-! #### Nothing reads `inte` -/

/-- The state with another value of `inte`. -/
def setInte (x : Bool) (s : State) : State := { s with inte := x }

theorem cond_setInte (k : Cond) (x : Bool) (s : State) : cond k (setInte x s) = cond k s := rfl

theorem jumpIf_setInte (k : Cond) (target : Word) (x : Bool) (s : State) :
    jumpIf k target (setInte x s) = setInte x (jumpIf k target s) := by
  rw [jumpIf_eq, jumpIf_eq]
  rfl

theorem callIf_setInte (k : Cond) (target : Word) (x : Bool) (s : State) :
    callIf k target (setInte x s) = setInte x (callIf k target s) := by
  rw [callIf, callIf, cond_setInte, apply_ite (setInte x)]
  rfl

theorem returnIf_setInte (k : Cond) (x : Bool) (s : State) :
    returnIf k (setInte x s) = setInte x (returnIf k s) := by
  rw [returnIf, returnIf, cond_setInte, apply_ite (setInte x)]
  rfl

theorem setA_portRead_setInte (p : Byte) (x : Bool) (s : State) :
    setA (portRead p (setInte x s)) = setInte x (setA (portRead p s)) := by
  rw [portRead_eq, portRead_eq]
  split <;> rfl

theorem portWrite_setInte (p v : Byte) (x : Bool) (s : State) :
    portWrite p v (setInte x s) = setInte x (portWrite p v s) := by
  rw [portWrite_eq, portWrite_eq, apply_ite (setInte x)]
  rfl

/-- EI and DI write the flip-flop whatever it held; every other instruction carries its value along. -/
theorem exec_setInte {i : Instr} {s t : State} (ran : exec i s = .next t) (x : Bool) :
    ∃ y, exec i (setInte x s) = .next (setInte y t) := by
  cases i with
  | ei =>
    cases ran
    exact ⟨true, rfl⟩
  | di =>
    cases ran
    exact ⟨false, rfl⟩
  | add op | adc op | sub op | sbb op | ana op | xra op | ora op | cmp op | mvi op _ | inr op | dcr op | lxi op _
  | inx op | dcx op | dad op | push op | pop op | ldax op | stax op =>
    cases ran
    exact ⟨x, by cases op <;> rfl⟩
  | mov dst src =>
    cases ran
    exact ⟨x, by cases dst <;> cases src <;> rfl⟩
  | jnz _ | jz _ | jnc _ | jc _ | jpo _ | jpe _ | jp _ | jm _ =>
    cases ran
    exact ⟨x, congrArg _ (jumpIf_setInte ..)⟩
  | cnz _ | cz _ | cnc _ | cc _ | cpo _ | cpe _ | cp _ | cm _ =>
    cases ran
    exact ⟨x, congrArg _ (callIf_setInte ..)⟩
  | rnz | rz | rnc | rc | rpo | rpe | rp | rm =>
    cases ran
    exact ⟨x, congrArg _ (returnIf_setInte ..)⟩
  | inPort p =>
    cases ran
    exact ⟨x, congrArg (fun u => Host.Outcome.next (report 10 u)) (setA_portRead_setInte ..)⟩
  | outPort p =>
    cases ran
    exact ⟨x, congrArg (fun u => Host.Outcome.next (report 10 u)) (portWrite_setInte ..)⟩
  | _ =>
    cases ran
    exact ⟨x, rfl⟩

/-- Settles O11: the idle step and the fetch carry `inte` along, and so does every instruction but EI and DI, which
give both states one value. -/
theorem nothingReadsInte : Obligations.NothingReadsInte := by
  intro s x
  obtain ⟨t, ran⟩ := step_eq_next s
  rcases step_cases ran with ⟨idle, rfl⟩ | ⟨running, arm⟩
  · exact ⟨_, x, ran, step_idle (s := setInte x s) idle⟩
  · obtain ⟨y, same⟩ := exec_setInte arm x
    exact ⟨t, y, ran, (step_running (s := setInte x s) running).trans same⟩

/-! #### PC -/

/-- An instruction that is no control transfer leaves PC where the fetch left it (R24). -/
theorem exec_pc {i : Instr} {s t : State} (straight : mayTransfer i = false) (ran : exec i s = .next t) :
    t.pc = s.pc := by
  cases i with
  | jmp _ | jnz _ | jz _ | jnc _ | jc _ | jpo _ | jpe _ | jp _ | jm _ | call _ | cnz _ | cz _ | cnc _ | cc _ | cpo _
  | cpe _ | cp _ | cm _ | ret | rnz | rz | rnc | rc | rpo | rpe | rp | rm | rst _ | pchl =>
    cases straight
  | _ =>
    cases ran
    simp [readOperand_eq, busReadWord_eq, pop16_eq]

/-- Settles O14: the fetch moves PC past the instruction, and the instruction leaves it there. -/
theorem pcAdvancesPastInstruction : Obligations.PcAdvancesPastInstruction := by
  intro s i rest running decoded straight
  obtain ⟨t, ran⟩ := step_eq_next s
  have fetched := stepRunsDecodedInstruction s i rest running decoded
  have past := exec_pc straight (fetched.symm.trans ran)
  exact ⟨t, ran, by simp [past]⟩

/-! #### Flags (R26 to R31) -/

/-- A write of one flag leaves every other bit. -/
theorem setFlag_getLsbD_of_ne (x : Flag) (v : Bool) (f : Byte) {j : Nat} (inside : j < 8) (other : j ≠ x.pos) :
    (setFlag x v f).getLsbD j = f.getLsbD j := by
  have mask : (1#8 <<< x.pos).getLsbD j = false := by
    simp
    omega
  cases v with
  | true => rw [setFlag, if_pos rfl, BitVec.getLsbD_or, mask, Bool.or_false]
  | false =>
    rw [setFlag, if_neg Bool.false_ne_true, BitVec.getLsbD_and, BitVec.getLsbD_not, mask, decide_eq_true inside,
      Bool.not_false, Bool.and_true, Bool.and_true]

/-- The mask of the wholesale load keeps the five places of the flags. -/
theorem flag_loadFlags (x : Flag) (v : Byte) : flag x (loadFlags v) = v.getLsbD x.pos := by
  cases x <;> simp [flag, loadFlags, Flag.pos]

/-- Settles O20: the single-flag write is bitwise, and the wholesale load is its mask. -/
theorem flagWritesKeepFixedBits : Obligations.FlagWritesKeepFixedBits :=
  ⟨fun x v f => ⟨by simp, fun _ inside other => setFlag_getLsbD_of_ne x v f inside other⟩,
    fun v => ⟨loadFlags_fixed v, fun x => flag_loadFlags x v⟩⟩

/-- The mask 0x3B leaves out the places of S, Z and P alone (R26). -/
theorem setFlag_szp_others {x : Flag} (written : x = .s ∨ x = .z ∨ x = .p) (v : Bool) (f : Byte) :
    setFlag x v f &&& 0x3B = f &&& 0x3B := by
  rcases written with rfl | rfl | rfl
  all_goals
    revert v f
    decide

theorem szp_others (v f : Byte) : szp v f &&& 0x3B = f &&& 0x3B := by
  rw [szp, setFlag_szp_others (.inl rfl), setFlag_szp_others (.inr (.inl rfl)), setFlag_szp_others (.inr (.inr rfl))]

/-- The count of 1 bits is even when their exclusive-or is 0, byte by byte (R29). -/
theorem parity_eq_not_xor (v : Byte) : parity v =
    !(v.getLsbD 0 ^^ v.getLsbD 1 ^^ v.getLsbD 2 ^^ v.getLsbD 3 ^^ v.getLsbD 4 ^^
      v.getLsbD 5 ^^ v.getLsbD 6 ^^ v.getLsbD 7) := by
  revert v
  decide

/-- Settles O29: `szp` is three single-flag writes. -/
theorem szpWritesSignZeroParity : Obligations.SzpWritesSignZeroParity := by
  refine ⟨fun v f => ?_, parity_eq_not_xor⟩
  obtain ⟨sign, zero, -, par, -, -⟩ := szp_flagsAre v f
  exact ⟨sign, by simp [zero], par, szp_others v f⟩

/-- Settles O30: each code is the test of `flag` at its flag's place. -/
theorem conditionCodesTestOneFlag : Obligations.ConditionCodesTestOneFlag :=
  fun _ => ⟨rfl, rfl, rfl, rfl, rfl, rfl, rfl, rfl⟩

/-! #### The canonical form of memory determines the list -/

theorem Memory.read_of_absent {m : Memory} {a : Nat} (absent : ∀ x ∈ m, x.1 ≠ a) : m.read a = unlistedByte := by
  induction m with
  | nil => rfl
  | cons cell m ih =>
    simp only [List.forall_mem_cons] at absent
    rw [Memory.read, if_neg absent.1, ih absent.2]

/-- The canonical form taken apart at the first cell: that cell is listed rightly and lies below a canonical rest. -/
theorem Memory.wf_cons {cell : Host.Cell} {m : Memory} :
    Memory.wf (cell :: m) ↔
      (cell.1 < 65536 ∧ cell.2 ≠ unlistedByte) ∧ (∀ x ∈ m, cell.1 < x.1) ∧ m.wf := by
  simp only [Memory.wf, List.pairwise_cons, List.forall_mem_cons]
  tauto

/-- A first cell's byte is read at its address. -/
theorem Memory.read_cons_self (cell : Host.Cell) (m : Memory) : Memory.read (cell :: m) cell.1 = cell.2 :=
  if_pos rfl

/-- The byte at the first cell of a canonical memory is not 0, so a canonical memory that reads alike there has a cell at
or below it. -/
theorem Memory.first_not_below {x y : Host.Cell} {m n : Memory} (hm : Memory.wf (x :: m)) (hn : Memory.wf (y :: n))
    (alike : Memory.read (x :: m) x.1 = Memory.read (y :: n) x.1) : ¬x.1 < y.1 := by
  intro below
  obtain ⟨⟨-, listed⟩, -, -⟩ := Memory.wf_cons.1 hm
  obtain ⟨-, above, -⟩ := Memory.wf_cons.1 hn
  have absent : ∀ z ∈ y :: n, z.1 ≠ x.1 :=
    List.forall_mem_cons.2 ⟨by omega, fun z hz => by have := above z hz; omega⟩
  rw [Memory.read_cons_self, Memory.read_of_absent absent] at alike
  exact listed alike

theorem Memory.eq_of_read_eq {m n : Memory} (hm : m.wf) (hn : n.wf)
    (alike : ∀ a, a < 65536 → m.read a = n.read a) : m = n := by
  induction m generalizing n with
  | nil =>
    cases n with
    | nil => rfl
    | cons y n =>
      obtain ⟨⟨inside, listed⟩, -, -⟩ := Memory.wf_cons.1 hn
      have := alike y.1 inside
      rw [Memory.read_cons_self] at this
      exact absurd this.symm listed
  | cons x m ih =>
    obtain ⟨⟨inside, listed⟩, above, rest⟩ := Memory.wf_cons.1 hm
    cases n with
    | nil =>
      have := alike x.1 inside
      rw [Memory.read_cons_self] at this
      exact absurd this listed
    | cons y n =>
      obtain ⟨⟨inside', -⟩, above', rest'⟩ := Memory.wf_cons.1 hn
      have place : x.1 = y.1 :=
        le_antisymm (not_lt.1 (Memory.first_not_below hn hm (alike y.1 inside').symm))
          (not_lt.1 (Memory.first_not_below hm hn (alike x.1 inside)))
      have first : x = y := by
        have byte := alike x.1 inside
        rw [Memory.read_cons_self, place, Memory.read_cons_self] at byte
        exact Prod.ext place byte
      subst first
      refine congrArg (x :: ·) (ih rest rest' fun a ha => ?_)
      by_cases h : x.1 = a
      · subst h
        rw [Memory.read_of_absent fun z hz => (above z hz).ne', Memory.read_of_absent fun z hz => (above' z hz).ne']
      · simpa [Memory.read, h] using alike a ha

/-- Settles O21, by induction on one list and the cases of the other: their first cells stand at one address, or the
lower of the two would read as unlisted in the other memory. -/
theorem canonicalMemoriesDetermined : Obligations.CanonicalMemoriesDetermined :=
  fun _ _ => Memory.eq_of_read_eq

/-! #### Pairs, PSW and selectors (R21 to R23, R30) -/

/-- Settles O27: a pair is its two bytes joined, and a word is its two bytes joined again. -/
theorem pairViewsPackHighByteFirst : Obligations.PairViewsPackHighByteFirst := by
  intro s w
  refine ⟨joinBytes_toNat .., joinBytes_toNat .., joinBytes_toNat .., writeRp_writes .bc w s, writeRp_writes .de w s,
    writeRp_writes .hl w s, hiByte_toNat w, loByte_toNat w, ?_, ?_, ?_⟩
  all_goals exact joinBytes_hiByte_loByte w

/-- Settles O31: PSW is A and F joined, and its write loads F through the mask. -/
theorem pswPacksAccumulatorAndFlags : Obligations.PswPacksAccumulatorAndFlags :=
  fun s _ => ⟨joinBytes_toNat s.a s.f, rfl⟩

theorem r8_sel_ofSel (i : BitVec 3) : (R8.ofSel i).sel = i := by
  revert i
  decide

theorem rp_sel_ofSel (i : BitVec 2) : (Rp.ofSel i).sel = i := by
  revert i
  decide

/-- Settles O28: each selector value computes to the operand it names, and a write of any operand writes that alone. -/
theorem selectorsNameOperands : Obligations.SelectorsNameOperands := fun s v w =>
  ⟨⟨rfl, rfl, rfl, rfl, rfl, rfl, rfl, rfl⟩, fun i => ⟨writeR8_writes _ v s, r8_sel_ofSel i⟩,
    ⟨rfl, rfl, rfl, rfl⟩, fun i => ⟨writeRp_writes _ w s, rp_sel_ofSel i⟩,
    ⟨rfl, rfl, rfl, rfl⟩, rfl, rfl, rfl, rfl⟩

end Sys2Proof.Machine

/-! ### Memory: its accesses, and the transactions a step presents (spec/20_memory.md) -/

namespace Sys2Proof.Machine

/-! #### Byte and word access, fetch and stack (R50 to R54, R63) -/

/-- Two states with canonical memories that read alike and agree in all else are one. -/
theorem eq_of_memRead_eq {s t : State} (hs : s.mem.wf) (ht : t.mem.wf) (others : t = { s with mem := t.mem })
    (alike : ∀ x, memRead t x = memRead s x) : t = s := by
  have same : t.mem = s.mem := Memory.eq_of_read_eq ht hs fun a inside => by
    simpa [memRead, Nat.mod_eq_of_lt inside] using alike (BitVec.ofNat 16 a)
  rw [others, same]

/-- Settles O22: the frame is `memWrite_storesByte`; each of the three equations is between states that read alike. -/
theorem byteAccessReadsLastWrite : Obligations.ByteAccessReadsLastWrite := by
  intro s addr v
  refine ⟨memWrite_storesByte s addr v, fun canonical => ⟨?_, fun other w => ⟨?_, fun apart => ?_⟩⟩⟩
  · refine eq_of_memRead_eq canonical (memWrite_wf _ _ canonical) rfl fun x => ?_
    rw [memRead_memWrite]
    split <;> simp [*]
  · refine eq_of_memRead_eq (memWrite_wf _ _ canonical) (memWrite_wf _ _ (memWrite_wf _ _ canonical)) rfl fun x => ?_
    simp only [memRead_memWrite]
    split <;> rfl
  · refine eq_of_memRead_eq (memWrite_wf _ _ (memWrite_wf _ _ canonical))
      (memWrite_wf _ _ (memWrite_wf _ _ canonical)) rfl fun x => ?_
    simp only [memRead_memWrite]
    by_cases here : x = addr
    · simp [here, apart]
    · simp [here]

/-- Settles O23: a word read is the two bytes joined, the second at the next address modulo 65536, and a word write is
two byte writes to different addresses. -/
theorem wordAccessLittleEndian : Obligations.WordAccessLittleEndian := fun s addr w =>
  ⟨joinBytes_toNat .., ⟨rfl, memRead_busWriteWord s addr w⟩,
    busReadWord_of_storesWord (busWriteWord_storesWord s addr w), rfl, rfl⟩

/-- Settles O26: a push is a word write below SP, a pop the word read at SP. -/
theorem popUndoesPush : Obligations.PopUndoesPush := fun s w =>
  ⟨push16_storesWord w s, pop16_eq s, busReadWord_of_storesWord (push16_storesWord w s),
    BitVec.sub_add_cancel s.sp 2⟩

/-- Settles O24: the two fetches are a byte read and a word read at PC. -/
theorem fetchReadsAndAdvances : Obligations.FetchReadsAndAdvances := fun s => ⟨fetch8_eq s, fetch16_eq s⟩

/-- Settles O25: STA is a byte write of A, and the fetch reads memory as that write left it. -/
theorem storeSeenByNextFetch : Obligations.StoreSeenByNextFetch := fun s addr =>
  ⟨_, rfl, (memRead_memWrite s addr addr s.a).trans (if_pos rfl)⟩

/-! #### What each instruction presents (R55, R57, R58) -/

theorem callIf_bus (k : Cond) (target : Word) (s : State) :
    (callIf k target s).bus = s.bus ++ if cond k s then wordWrites (s.sp - 2) s.pc else [] := by
  unfold callIf
  split
  · exact push16_bus s.pc s
  · exact (List.append_nil _).symm

theorem returnIf_bus (k : Cond) (s : State) :
    (returnIf k s).bus = s.bus ++ if cond k s then wordReads s s.sp else [] := by
  unfold returnIf
  split <;> simp [returnFrom_eq]

theorem portRead_bus (p : Byte) (s : State) :
    (portRead p s).2.bus = s.bus ++ (portAccessOf (.inPort p) s).map .port := by
  simp only [portRead_eq, portAccessOf]
  split <;> simp

theorem portWrite_bus (p : Byte) (s : State) :
    (portWrite p s.a s).bus = s.bus ++ (portAccessOf (.outPort p) s).map .port := by
  simp only [portWrite_eq, portAccessOf]
  split <;> simp

/-- What an operand write presents depends on H and L alone. -/
@[simp] theorem operandWrites_of_f_bus (s : State) (f' : Byte) (ts : List Transaction) (r : R8) (v : Byte) :
    operandWrites { s with f := f', bus := ts } r v = operandWrites s r v := rfl

/-- An instruction presents its data reads, then its port access, then its data writes (R57). -/
theorem exec_bus {i : Instr} {s t : State} (ran : exec i s = .next t) :
    t.bus = s.bus ++ dataReads i s ++ (portAccessOf i s).map .port ++ dataWrites i s := by
  cases i with
  | mov _ _ | inr _ | dcr _ =>
    cases ran
    simp [readOperand_eq, dataReads, portAccessOf, dataWrites, inc8, dec8]
  | cnz _ | cz _ | cnc _ | cc _ | cpo _ | cpe _ | cp _ | cm _ =>
    cases ran
    simp [callIf_bus, dataReads, portAccessOf, dataWrites]
  | rnz | rz | rnc | rc | rpo | rpe | rp | rm =>
    cases ran
    simp [returnIf_bus, dataReads, portAccessOf, dataWrites]
  | inPort p =>
    cases ran
    simp [portRead_bus, dataReads, dataWrites]
  | outPort p =>
    cases ran
    simp [portWrite_bus, dataReads, dataWrites]
  | _ =>
    cases ran
    simp [readOperand_eq, busReadWord_eq, pop16_eq, returnFrom_eq, callTo, dataReads, portAccessOf, dataWrites,
      wordWrites]

/-- An instruction's port access alone is added to the port record (R235). -/
theorem exec_portLog {i : Instr} {s t : State} (ran : exec i s = .next t) :
    t.portLog = s.portLog ++ portAccessOf i s := by
  cases i with
  | inPort p =>
    cases ran
    simp only [report_portLog, setA_portLog, portRead_eq, portAccessOf]
    split <;> simp
  | outPort p =>
    cases ran
    simp only [report_portLog, portWrite_eq, portAccessOf]
    split <;> simp
  | _ =>
    cases ran
    simp [readOperand_eq, busReadWord_eq, pop16_eq, portAccessOf]

/-- Settles O15: only IN and OUT have a port access, and a present read capability's answer is what comes to A. -/
theorem portAccessesByInOutAlone : Obligations.PortAccessesByInOutAlone := by
  intro i s
  obtain ⟨t, ran⟩ := exec_eq_next i s
  refine ⟨t, ran, (exec_portLog ran).trans ?_⟩
  cases i with
  | inPort p =>
    cases ran
    simp only [portAccessOf, report_a, setA_a, portRead_eq]
    split <;> simp [*]
  | _ => rfl

/-! #### Memory answers what is read and accepts what is written (R64) -/

/-- Every transaction is a read that gives the byte the state's memory holds. -/
def ReadsOf (s : State) (ts : List Transaction) : Prop :=
  ∀ x ∈ ts, ∃ addr, x = .memRead addr (memRead s addr)

theorem ReadsOf.accepts {s : State} {ts : List Transaction} (reads : ReadsOf s ts) : Accepts s.mem ts s.mem := by
  induction ts with
  | nil => rfl
  | cons x ts ih =>
    obtain ⟨⟨addr, rfl⟩, rest⟩ := List.forall_mem_cons.1 reads
    exact ⟨rfl, ih rest⟩

theorem ReadsOf.portAccesses_eq_nil {s : State} {ts : List Transaction} (reads : ReadsOf s ts) :
    portAccesses ts = [] := by
  induction ts with
  | nil => rfl
  | cons x ts ih =>
    obtain ⟨⟨addr, rfl⟩, rest⟩ := List.forall_mem_cons.1 reads
    exact ih rest

theorem ReadsOf.nil (s : State) : ReadsOf s [] :=
  List.forall_mem_nil _

theorem fetchReads_readsOf (s : State) (n : Nat) : ReadsOf s (fetchReads s n) := by
  simp [ReadsOf, fetchReads]

theorem wordReads_readsOf (s : State) (addr : Word) : ReadsOf s (wordReads s addr) := by
  simp [ReadsOf, wordReads]

theorem operandReads_readsOf (s : State) (r : R8) : ReadsOf s (operandReads s r) := by
  cases r <;> simp [ReadsOf, operandReads]

theorem dataReads_readsOf (i : Instr) (s : State) : ReadsOf s (dataReads i s) := by
  cases i with
  | mov _ _ | add _ | adc _ | sub _ | sbb _ | cmp _ | ana _ | xra _ | ora _ | inr _ | dcr _ =>
    exact operandReads_readsOf s _
  | lhld _ | pop _ | ret | xthl => exact wordReads_readsOf s _
  | rnz | rz | rnc | rc | rpo | rpe | rp | rm =>
    simp only [dataReads]
    split
    · exact wordReads_readsOf s _
    · exact .nil s
  | lda _ | ldax _ => simp [ReadsOf, dataReads]
  | _ => exact .nil s

theorem accepts_ports (m : Memory) (accesses : List PortAccess) : Accepts m (accesses.map .port) m := by
  induction accesses with
  | nil => rfl
  | cons _ _ ih => exact ih

theorem portAccesses_ports (accesses : List PortAccess) : portAccesses (accesses.map .port) = accesses := by
  induction accesses with
  | nil => rfl
  | cons access _ ih => exact congrArg (access :: ·) ih

theorem writeOperand_mem (r : R8) (v : Byte) (s : State) :
    (writeOperand r v s).mem = if r = .m then s.mem.write (hl s).toNat v else s.mem := by
  cases r <;> rfl

theorem accepts_callIf (k : Cond) (target : Word) (s : State) :
    Accepts s.mem (if cond k s then wordWrites (s.sp - 2) s.pc else []) (callIf k target s).mem := by
  unfold callIf
  split <;> rfl

/-- Memory after an instruction is memory before it with the data writes made in order (R64). -/
theorem exec_accepts_dataWrites {i : Instr} {s t : State} (ran : exec i s = .next t) :
    Accepts s.mem (dataWrites i s) t.mem := by
  cases i with
  | mov dst _ | mvi dst _ | inr dst | dcr dst =>
    cases ran
    simp only [readOperand_eq, dataWrites, operandWrites, report_mem, writeOperand_mem]
    split <;> rfl
  | cnz _ | cz _ | cnc _ | cc _ | cpo _ | cpe _ | cp _ | cm _ =>
    cases ran
    exact accepts_callIf ..
  | _ =>
    cases ran
    simp [readOperand_eq, busReadWord_eq, pop16_eq, dataWrites, wordWrites, Accepts]

theorem portAccesses_dataWrites (i : Instr) (s : State) : portAccesses (dataWrites i s) = [] := by
  cases i with
  | mov _ _ | mvi _ _ | inr _ | dcr _ =>
    simp only [dataWrites, operandWrites]
    split <;> rfl
  | cnz _ | cz _ | cnc _ | cc _ | cpo _ | cpe _ | cp _ | cm _ =>
    simp only [dataWrites]
    split <;> rfl
  | _ => rfl

/-! #### Whole steps and runs (R57, R61, R64) -/

/-- An instruction run after reads alone (its fetch): memory accepts all that has been presented, and the port record
gains the port accesses among it. -/
theorem exec_accesses {i : Instr} {s t : State} (ran : exec i s = .next t) (fetched : ReadsOf s s.bus) :
    Accepts s.mem t.bus t.mem ∧ t.portLog = s.portLog ++ portAccesses t.bus := by
  have data := dataReads_readsOf i s
  rw [exec_bus ran]
  constructor
  · simp only [accepts_append]
    exact ⟨s.mem, ⟨s.mem, ⟨s.mem, fetched.accepts, data.accepts⟩, accepts_ports ..⟩, exec_accepts_dataWrites ran⟩
  · simp [exec_portLog ran, portAccesses_append, fetched.portAccesses_eq_nil, data.portAccesses_eq_nil,
      portAccesses_ports, portAccesses_dataWrites]

theorem step_accesses {s t : State} (ran : step s = .next t) :
    Accepts s.mem t.bus t.mem ∧ t.portLog = s.portLog ++ portAccesses t.bus := by
  rcases step_cases ran with ⟨-, rfl⟩ | ⟨-, arm⟩
  · exact ⟨rfl, (List.append_nil _).symm⟩
  · have accepted := exec_accesses arm (fetchReads_readsOf s _)
    exact accepted

theorem runFor_succ {s t : State} (ran : step s = .next t) (n : Nat) :
    runFor (n + 1) s = (t.bus ++ (runFor n t).1, (runFor n t).2) := by
  rw [runFor, ran]

theorem runFor_accesses (n : Nat) (s : State) :
    Accepts s.mem (runFor n s).1 (runFor n s).2.mem ∧
      (runFor n s).2.portLog = s.portLog ++ portAccesses (runFor n s).1 := by
  induction n generalizing s with
  | zero => exact ⟨rfl, (List.append_nil _).symm⟩
  | succ n ih =>
    obtain ⟨t, ran⟩ := step_eq_next s
    obtain ⟨first, firstPorts⟩ := step_accesses ran
    obtain ⟨rest, restPorts⟩ := ih t
    rw [runFor_succ ran]
    exact ⟨(accepts_append ..).2 ⟨t.mem, first, rest⟩, by
      rw [restPorts, firstPorts, portAccesses_append, List.append_assoc]⟩

/-- The step begins by dropping what an earlier step presented (R61). -/
theorem step_ignores_bus (s : State) (earlier : List Transaction) : step { s with bus := earlier } = step s := rfl

/-- Settles O60: the fetch presents its reads and `exec_bus` gives what the instruction presents after them; runs are
by induction on their length, each step's transactions accepted by the memory the one before left. -/
theorem everyStepPresentsItsAccesses : Obligations.EveryStepPresentsItsAccesses := by
  refine ⟨fun s => ⟨step_ignores_bus s, ?_⟩, runFor_accesses⟩
  obtain ⟨t, ran⟩ := step_eq_next s
  refine ⟨t, ran, fun idle => ?_, fun i rest running decoded => ?_⟩
  · rw [step_idle idle] at ran
    cases ran
    rfl
  · rw [stepRunsDecodedInstruction s i rest running decoded] at ran
    exact exec_bus ran

end Sys2Proof.Machine

/-! ### The encoding: the decoder and the encoder undo each other (spec/30_encoding.md) -/

namespace Sys2Proof.Machine

/-! #### Decoding what is encoded, format by format (R80, R84) -/

/-- Format `OP`: the opcode alone selects the instruction. -/
theorem decode_encodeOp1 {q : BitVec 2} {y z : BitVec 3} {i : Instr} (selects : decodeOp (opcodeOf q y z) 0 0 = i)
    (one : i.length = 1) (rest : List Byte) : decode (encodeOp1 q y z ++ rest) = .ok i rest := by
  have len : opLength (opcodeOf q y z) = 1 := (congrArg Instr.length selects).trans one
  simpa [encodeOp1, decode, len] using selects

/-- Formats `OP_D8` and `OP_PORT`. -/
theorem decode_encodeOp2 {q : BitVec 2} {y z : BitVec 3} {d8 : Byte} {i : Instr}
    (selects : decodeOp (opcodeOf q y z) d8 0 = i) (two : i.length = 2) (rest : List Byte) :
    decode (encodeOp2 q y z d8 ++ rest) = .ok i rest := by
  have len : opLength (opcodeOf q y z) = 2 := by rw [← decodeOp_length _ d8 0, selects, two]
  simpa [encodeOp2, decode, len] using selects

/-- Formats `OP_D16` and `OP_A16`: the decoder joins the two bytes the encoder took apart. -/
theorem decode_encodeOp3 {q : BitVec 2} {y z : BitVec 3} {instr : Word → Instr} {w : Word}
    (selects : ∀ lo hi, decodeOp (opcodeOf q y z) lo hi = instr (joinBytes hi lo)) (three : (instr w).length = 3)
    (rest : List Byte) : decode (encodeOp3 q y z w ++ rest) = .ok (instr w) rest := by
  have selected : decodeOp (opcodeOf q y z) (loByte w) (hiByte w) = instr w := by
    rw [selects, joinBytes_hiByte_loByte]
  have len : opLength (opcodeOf q y z) = 3 := by rw [← decodeOp_length, selected, three]
  simp [encodeOp3, decode, len, selected]

/-- MOV M,M is the one ill-formed term (R101). -/
theorem wellFormed_iff (i : Instr) : i.wellFormed = true ↔ i ≠ .mov .m .m := by
  unfold Instr.wellFormed
  split <;> simp_all

theorem r8_ofSel_sel (r : R8) : R8.ofSel r.sel = r := by
  cases r <;> rfl

/-- The two selectors of a MOV select it again, but for M,M, which they share with HLT (R84). -/
theorem decodeOp_mov {dst src : R8} (formed : (Instr.mov dst src).wellFormed = true) :
    decodeOp (opcodeOf 1 dst.sel src.sel) 0 0 = .mov dst src := by
  rw [wellFormed_iff] at formed
  refine (decodeOp_opcodeOf ..).trans ?_
  show decodeQuadrant1 dst.sel src.sel = .mov dst src
  unfold decodeQuadrant1
  rw [r8_ofSel_sel, r8_ofSel_sel]
  split
  · contradiction
  · rfl

/-- Settles O1: each constructor's encoding is of one of the three formats, and its selectors select it again. -/
theorem decodeEncodeRoundTrip : Obligations.DecodeEncodeRoundTrip := by
  intro i rest formed
  cases i with
  | mov dst src => exact decode_encodeOp1 (decodeOp_mov formed) rfl rest
  | mvi r _ => exact decode_encodeOp2 (by cases r <;> rfl) rfl rest
  | lxi p _ => exact decode_encodeOp3 (by cases p <;> exact fun _ _ => rfl) rfl rest
  | add r | adc r | sub r | sbb r | ana r | xra r | ora r | cmp r | inr r | dcr r =>
    exact decode_encodeOp1 (by cases r <;> rfl) rfl rest
  | ldax p | stax p | inx p | dcx p | dad p | push p | pop p =>
    exact decode_encodeOp1 (by cases p <;> rfl) rfl rest
  | rst n => exact decode_encodeOp1 (by revert n; decide) rfl rest
  | adi _ | aci _ | sui _ | sbi _ | ani _ | xri _ | ori _ | cpi _ | inPort _ | outPort _ =>
    exact decode_encodeOp2 rfl rfl rest
  | lda _ | sta _ | lhld _ | shld _
  | jmp _ | jnz _ | jz _ | jnc _ | jc _ | jpo _ | jpe _ | jp _ | jm _
  | call _ | cnz _ | cz _ | cnc _ | cc _ | cpo _ | cpe _ | cp _ | cm _ =>
    exact decode_encodeOp3 (fun _ _ => rfl) rfl rest
  | _ => exact decode_encodeOp1 rfl rfl rest

theorem decode_encode {i : Instr} (formed : i.wellFormed = true) : decode (encode i) = .ok i [] := by
  simpa using decodeEncodeRoundTrip i [] formed

/-! #### Encoding what is decoded, quadrant by quadrant (R84): the three bytes begin with the encoding -/

theorem encodeOp1_begins (q : BitVec 2) (y z : BitVec 3) (b2 b3 : Byte) :
    encodeOp1 q y z <+: [opcodeOf q y z, b2, b3] :=
  ⟨[b2, b3], rfl⟩

theorem encodeOp2_begins (q : BitVec 2) (y z : BitVec 3) (b2 b3 : Byte) :
    encodeOp2 q y z b2 <+: [opcodeOf q y z, b2, b3] :=
  ⟨[b3], rfl⟩

theorem encodeOp3_begins (q : BitVec 2) (y z : BitVec 3) (b2 b3 : Byte) :
    encodeOp3 q y z (joinBytes b3 b2) <+: [opcodeOf q y z, b2, b3] := by
  simp [encodeOp3]

theorem stackPair_sel_ofSel (i : BitVec 2) : (StackPair.ofSel i).sel = i := by
  revert i
  decide

/-- The middle field is its pair and its bit 3. -/
theorem midOf_midPair_set {y : BitVec 3} (bit : midBit3 y = true) : midOf (midPair y) 1#1 = y := by
  revert y
  decide

theorem midOf_midPair_clear {y : BitVec 3} (bit : ¬midBit3 y = true) : midOf (midPair y) 0#1 = y := by
  revert y
  decide

theorem encode_decodeQuadrant1 (y z : BitVec 3) : encode (decodeQuadrant1 y z) = encodeOp1 1 y z := by
  revert y z
  decide

theorem encode_decodeQuadrant2 (y z : BitVec 3) : encode (decodeQuadrant2 y (R8.ofSel z)) = encodeOp1 2 y z := by
  revert y z
  decide

theorem encode_decodeReturnIf (y : BitVec 3) : encode (decodeReturnIf y) = encodeOp1 3 y 0 := by
  revert y
  decide

theorem encode_decodeJumpIf (y : BitVec 3) (w : Word) : encode (decodeJumpIf y w) = encodeOp3 3 y 2 w := by
  rcases bitVec3_cases y with rfl | rfl | rfl | rfl | rfl | rfl | rfl | rfl <;> rfl

theorem encode_decodeCallIf (y : BitVec 3) (w : Word) : encode (decodeCallIf y w) = encodeOp3 3 y 4 w := by
  rcases bitVec3_cases y with rfl | rfl | rfl | rfl | rfl | rfl | rfl | rfl <;> rfl

theorem encode_decodeAluImmediate (y : BitVec 3) (d8 : Byte) :
    encode (decodeAluImmediate y d8) = encodeOp2 3 y 6 d8 := by
  rcases bitVec3_cases y with rfl | rfl | rfl | rfl | rfl | rfl | rfl | rfl <;> rfl

/-- Quadrant 0: bits 2:0 = 000 is canonical with bits 5:3 = 000 alone (R87). -/
theorem encode_decodeQuadrant0_begins {y z : BitVec 3} (canonical : opcodeOf 0 y z ∉ aliasOpcodes) (b2 b3 : Byte) :
    encode (decodeQuadrant0 y z b2 (joinBytes b3 b2)) <+: [opcodeOf 0 y z, b2, b3] := by
  rcases bitVec3_cases z with rfl | rfl | rfl | rfl | rfl | rfl | rfl | rfl
  · have nop : y = 0 := by
      revert y
      decide
    subst nop
    exact encodeOp1_begins ..
  · by_cases bit : midBit3 y = true
    · simp [decodeQuadrant0, bit, encode, rp_sel_ofSel, midOf_midPair_set, encodeOp1_begins]
    · simp [decodeQuadrant0, bit, encode, rp_sel_ofSel, midOf_midPair_clear, encodeOp3_begins]
  · rcases bitVec3_cases y with rfl | rfl | rfl | rfl | rfl | rfl | rfl | rfl
    iterate 4 exact encodeOp1_begins ..
    all_goals exact encodeOp3_begins ..
  · by_cases bit : midBit3 y = true
    · simp [decodeQuadrant0, bit, encode, rp_sel_ofSel, midOf_midPair_set, encodeOp1_begins]
    · simp [decodeQuadrant0, bit, encode, rp_sel_ofSel, midOf_midPair_clear, encodeOp1_begins]
  · simp [decodeQuadrant0, encode, r8_sel_ofSel, encodeOp1_begins]
  · simp [decodeQuadrant0, encode, r8_sel_ofSel, encodeOp1_begins]
  · simp [decodeQuadrant0, encode, r8_sel_ofSel, encodeOp2_begins]
  · rcases bitVec3_cases y with rfl | rfl | rfl | rfl | rfl | rfl | rfl | rfl <;> exact encodeOp1_begins ..

/-- Quadrant 3: 0xD9 stands among RET and POP, 0xCB beside JMP, and of the opcodes with bits 2:0 = 101 and bit 3 set
only CALL's own, 0xCD, is canonical (R87). -/
theorem encode_decodeQuadrant3_begins {y z : BitVec 3} (canonical : opcodeOf 3 y z ∉ aliasOpcodes) (b2 b3 : Byte) :
    encode (decodeQuadrant3 y z b2 (joinBytes b3 b2)) <+: [opcodeOf 3 y z, b2, b3] := by
  rcases bitVec3_cases z with rfl | rfl | rfl | rfl | rfl | rfl | rfl | rfl
  · exact encode_decodeReturnIf y ▸ encodeOp1_begins ..
  · have encoded : encode (decodeQuadrant3 y 1 0 0) = encodeOp1 3 y 1 := by
      revert y
      decide
    have alone : decodeQuadrant3 y 1 b2 (joinBytes b3 b2) = decodeQuadrant3 y 1 0 0 := rfl
    exact alone ▸ encoded ▸ encodeOp1_begins ..
  · exact encode_decodeJumpIf y _ ▸ encodeOp3_begins ..
  · rcases bitVec3_cases y with rfl | rfl | rfl | rfl | rfl | rfl | rfl | rfl
    · exact encodeOp3_begins ..
    · exact absurd (by decide) canonical
    iterate 2 exact encodeOp2_begins ..
    all_goals exact encodeOp1_begins ..
  · exact encode_decodeCallIf y _ ▸ encodeOp3_begins ..
  · by_cases bit : midBit3 y = true
    · have call : y = 1 := by
        revert y
        decide
      subst call
      exact encodeOp3_begins ..
    · simp [decodeQuadrant3, bit, encode, stackPair_sel_ofSel, midOf_midPair_clear, encodeOp1_begins]
  · exact encode_decodeAluImmediate y b2 ▸ encodeOp2_begins ..
  · exact encodeOp1_begins ..

/-- Three bytes whose opcode is none of `aliasOpcodes` begin with the encoding of what they decode to. -/
theorem encode_decodeOp_begins {op : Byte} (canonical : op ∉ aliasOpcodes) (b2 b3 : Byte) :
    encode (decodeOp op b2 b3) <+: [op, b2, b3] := by
  revert op
  apply opcode_induction
  intro q y z canonical
  rw [decodeOp_opcodeOf]
  rcases bitVec2_cases q with rfl | rfl | rfl | rfl
  · exact encode_decodeQuadrant0_begins canonical b2 b3
  · exact encode_decodeQuadrant1 y z ▸ encodeOp1_begins ..
  · exact encode_decodeQuadrant2 y z ▸ encodeOp1_begins ..
  · exact encode_decodeQuadrant3_begins canonical b2 b3

theorem encode_length (i : Instr) : (encode i).length = i.length := by
  cases i <;> rfl

/-- No bytes decode to MOV M,M (R84, R101). -/
theorem decodeOp_wellFormed (op b2 b3 : Byte) : (decodeOp op b2 b3).wellFormed = true := by
  rw [wellFormed_iff, Ne, decodeOp_eq_iff_of_length_one rfl]
  revert op
  decide

/-- Bytes that decode are those of one instruction and the rest; operand bytes the opcode does not use stand for any. -/
theorem decode_eq_ok {op : Byte} {bs rest : List Byte} {i : Instr} (decoded : decode (op :: bs) = .ok i rest) :
    ∃ b2 b3, decodeOp op b2 b3 = i ∧ [op, b2, b3].take (opLength op) ++ rest = op :: bs := by
  simp only [decode] at decoded
  split at decoded
  case h_4 => cases decoded
  all_goals
    next len =>
    cases decoded
    exact ⟨_, _, rfl, by rw [len]; rfl⟩

/-- Settles O2: the bytes are one instruction's and the rest, which begin with its encoding and are as many. -/
theorem encodeDecodeCanonicalBytes : Obligations.EncodeDecodeCanonicalBytes := by
  intro op bs rest i canonical decoded
  obtain ⟨b2, b3, rfl, bytes⟩ := decode_eq_ok decoded
  have encoded := List.prefix_iff_eq_take.1 (encode_decodeOp_begins canonical b2 b3)
  rw [encode_length, decodeOp_length] at encoded
  exact ⟨encoded ▸ bytes, decodeOp_wellFormed op b2 b3⟩

/-! #### Every opcode, the aliases, and words written out -/

theorem opLength_bounds (op : Byte) : 1 ≤ opLength op ∧ opLength op ≤ 3 := by
  rcases decodeOp_uses op with ⟨len, -⟩ | ⟨len, -⟩ | len <;> simp [len]

/-- Settles O3: the length is the opcode's own, and no bytes decode to the one ill-formed term. -/
theorem everyOpcodeSelectsOneInstruction : Obligations.EveryOpcodeSelectsOneInstruction := fun op =>
  ⟨opLength op, (opLength_bounds op).1, (opLength_bounds op).2, fun b2 b3 rest =>
    ⟨decodeOp op b2 b3, decodeOp_wellFormed op b2 b3, decodeOp_length op b2 b3, decode_three op b2 b3 rest⟩⟩

/-- Settles O4: each of the twelve opcodes computes to the instruction its canonical opcode computes to. -/
theorem aliasOpcodesDecodeAsCanonical : Obligations.AliasOpcodesDecodeAsCanonical := by
  intro rest
  refine ⟨fun op nop => ?_, fun lo hi => ⟨⟨rfl, rfl⟩, ⟨rfl, rfl⟩, fun op call => ?_⟩⟩
  · fin_cases nop <;> exact ⟨rfl, rfl⟩
  · fin_cases call <;> exact ⟨rfl, rfl⟩

/-- Settles O5: each word is the encoding of its instruction, so it decodes to it. -/
theorem sampleWordsDecode : Obligations.SampleWordsDecode :=
  ⟨decode_encode (i := .mov .a .m) rfl, decode_encode (i := .hlt) rfl, decode_encode (i := .lxi .hl 0x1234) rfl,
    decode_encode (i := .sbb .l) rfl, decode_encode (i := .cpi 0x0A) rfl, decode_encode (i := .cma) rfl,
    decode_encode (i := .cz 0x2000) rfl, decode_encode (i := .rst 3) rfl, decode_encode (i := .push .psw) rfl,
    decode_encode (i := .inx .sp) rfl, decode_encode (i := .outPort 0x01) rfl⟩

end Sys2Proof.Machine

/-! ### Data transfer: one byte or word is moved, and no flag is written (spec/40_data_transfer.md) -/

namespace Sys2Proof.Machine

/-! #### What a reported access of an operand or of memory changes, its transactions left open -/

theorem report_writeOperand_writes (n : Nat) (r : R8) (v : Byte) (s : State) :
    WritesR8 r v { s with cycles := n, bus := (report n (writeOperand r v s)).bus }
      (report n (writeOperand r v s)) := by
  rw [report_bus, writeOperand_bus, report_writeOperand]
  exact writeOperand_writes r v (report n s)

theorem report_writeRp_writes (n : Nat) (p : Rp) (w : Word) (s : State) :
    WritesRp p w { s with cycles := n } (report n (writeRp p w s)) :=
  report_writeRp n p w s ▸ writeRp_writes p w (report n s)

theorem report_setA_busRead (n : Nat) (addr : Word) (s : State) :
    report n (setA (busRead addr s)) =
      { s with a := memRead s addr, cycles := n, bus := (report n (setA (busRead addr s))).bus } := rfl

theorem report_busWrite_storesByte (n : Nat) (addr : Word) (v : Byte) (s : State) :
    StoresByte { s with cycles := n, bus := (report n (busWrite addr v s)).bus }
      (report n (busWrite addr v s)) addr v :=
  busWrite_storesByte (report n s) addr v

theorem report_busWriteWord_storesWord (n : Nat) (addr w : Word) (s : State) :
    StoresWord { s with cycles := n, bus := (report n (busWriteWord addr w s)).bus }
      (report n (busWriteWord addr w s)) addr w := by
  rw [report_bus, busWriteWord_bus]
  exact busWriteWord_storesWord (report n s) addr w

/-! #### The instructions (R101 to R110) -/

theorem movCount_eq (dst src : R8) : movCount dst src = if dst = .m ∨ src = .m then 7 else 5 := by
  cases dst <;> cases src <;> rfl

/-- An opcode that selects a three-byte instruction takes both bytes after it, the low byte first (R80, R83). -/
theorem decode_of_length_three {op lo hi : Byte} {i : Instr} (selects : decodeOp op lo hi = i) (three : i.length = 3)
    (rest : List Byte) : decode (op :: lo :: hi :: rest) = .ok i rest := by
  rw [decode_three, ← decodeOp_length op lo hi, selects, three]
  rfl

/-- Settles O32: MOV is a read of one operand, which changes no state, and a write of what was read to the other. -/
theorem movCopiesOneByte : Obligations.MovCopiesOneByte := by
  intro dst src notBoth
  have formed : (Instr.mov dst src).wellFormed = true := by simpa [wellFormed_iff] using notBoth
  refine ⟨fun s => ⟨_, rfl, ?_⟩, fun rest => decodeEncodeRoundTrip (.mov dst src) rest formed⟩
  rw [← movCount_eq, readOperand_eq]
  exact report_writeOperand_writes ..

/-- Settles O33: MVI is a write of an operand, LXI a write of a pair. -/
theorem immediateLoads : Obligations.ImmediateLoads := by
  refine ⟨fun dst d8 s => ⟨_, rfl, ?_⟩, fun p d16 s => ⟨_, rfl, report_writeRp_writes 10 p d16 s⟩,
    fun dst p b2 b3 rest => ⟨decodeEncodeRoundTrip (.mvi dst b2) rest rfl, ?_⟩⟩
  · rw [← countFor_eq]
    exact report_writeOperand_writes ..
  · exact decode_of_length_three (by cases p <;> rfl) rfl rest

/-- LHLD's word read and write of HL: L is the byte at the address, H the byte at the next (R106). -/
theorem report_setHl_busReadWord (n : Nat) (addr : Word) (s : State) :
    report n (setHl (busReadWord addr s).1 (busReadWord addr s).2) =
      { s with
        l := memRead s addr
        h := memRead s (addr + 1)
        cycles := n
        bus := (report n (setHl (busReadWord addr s).1 (busReadWord addr s).2)).bus } := by
  simp [busReadWord_eq, setHl, report]

/-- Settles O34: LDA and STA are a byte access at the address, LHLD and SHLD a word access there. -/
theorem directLoadsAndStores : Obligations.DirectLoadsAndStores :=
  ⟨fun a16 s => ⟨⟨_, rfl, report_setA_busRead 13 a16 s⟩, ⟨_, rfl, report_busWrite_storesByte 13 a16 s.a s⟩,
      ⟨_, rfl, report_setHl_busReadWord 16 a16 s⟩, ⟨_, rfl, report_busWriteWord_storesWord 16 a16 (hl s) s⟩⟩,
    fun _ _ rest => ⟨decode_of_length_three rfl rfl rest, decode_of_length_three rfl rfl rest,
      decode_of_length_three rfl rfl rest, decode_of_length_three rfl rfl rest⟩⟩

/-- Settles O35: LDAX and STAX are a byte access at the pair's address; the neighbours are O34's. -/
theorem indirectLoadsAndStores : Obligations.IndirectLoadsAndStores := by
  refine ⟨fun s => ⟨⟨_, rfl, report_setA_busRead 7 (bc s) s⟩, ⟨_, rfl, report_setA_busRead 7 (de s) s⟩,
    ⟨_, rfl, report_busWrite_storesByte 7 (bc s) s.a s⟩, ⟨_, rfl, report_busWrite_storesByte 7 (de s) s.a s⟩⟩,
    fun lo hi rest => ?_⟩
  obtain ⟨lda, sta, lhld, shld⟩ := directLoadsAndStores.2 lo hi rest
  exact ⟨decodeEncodeRoundTrip (.ldax .bc) rest rfl, decodeEncodeRoundTrip (.ldax .de) rest rfl,
    decodeEncodeRoundTrip (.stax .bc) rest rfl, decodeEncodeRoundTrip (.stax .de) rest rfl, lhld, lda, shld, sta⟩

theorem exec_xchg (s : State) :
    exec .xchg s = .next { s with d := s.h, e := s.l, h := s.d, l := s.e, cycles := 4 } := by
  simp [exec, execXchg, report, setDe, setHl, de, hl]

/-- Settles O36: each pair is written with the other's two bytes as they were, so a second swap puts them back. -/
theorem xchgSwapsDeAndHl : Obligations.XchgSwapsDeAndHl :=
  ⟨fun s => ⟨exec_xchg s, _, exec_xchg s, exec_xchg _⟩, fun rest => decodeEncodeRoundTrip .xchg rest rfl⟩

end Sys2Proof.Machine

/-! ### Arithmetic: the additions, the subtractions, the pair adders and decimal adjust (spec/41_arithmetic.md) -/

namespace Sys2Proof.Machine

/-! #### What an ALU function reported as the instruction's result leaves, on an operand `v` and on one read -/

/-- A and F replaced by a result and its flags, the transactions left open. -/
theorem report_setAccFlags_aluResult {s : State} {r : Byte × Byte} {aux carry : Bool}
    (flags : FlagsAre s.f r.2 (r.1.getLsbD 7) (r.1 == 0) aux (parity r.1) carry) (n : Nat) (ts : List Transaction) :
    AluResult s (report n (setAccFlags r { s with bus := ts })) r.1 aux carry n :=
  ⟨rfl, flags⟩

theorem report_add8_adds (n : Nat) (v : Byte) (cin : Bool) (s : State) (ts : List Transaction) :
    Adds s (report n (setAccFlags (add8 s.a v cin s.f) { s with bus := ts })) v cin n := by
  obtain ⟨sum, flags⟩ := add8_spec s.a v cin s.f
  rw [Adds, ← sum]
  exact report_setAccFlags_aluResult flags n ts

theorem report_add8_operand_adds (src : R8) (cin : Bool) (s : State) :
    Adds s (report (countFor 4 7 src) (setAccFlags (add8 s.a (readOperand src s).1 cin s.f) (readOperand src s).2))
      (readR8 src s) cin (if src = .m then 7 else 4) := by
  rw [readOperand_eq, countFor_eq]
  exact report_add8_adds ..

theorem report_sub8_subtracts (n : Nat) (v : Byte) (bin : Bool) (s : State) (ts : List Transaction) :
    Subtracts s (report n (setAccFlags (sub8 s.a v bin s.f) { s with bus := ts })) v bin n := by
  obtain ⟨difference, flags⟩ := sub8_spec s.a v bin s.f
  rw [Subtracts, ← difference]
  exact report_setAccFlags_aluResult flags n ts

theorem report_sub8_operand_subtracts (src : R8) (bin : Bool) (s : State) :
    Subtracts s
      (report (countFor 4 7 src) (setAccFlags (sub8 s.a (readOperand src s).1 bin s.f) (readOperand src s).2))
      (readR8 src s) bin (if src = .m then 7 else 4) := by
  rw [readOperand_eq, countFor_eq]
  exact report_sub8_subtracts ..

theorem byte_sub_beq_zero (a v : Byte) : (a - v == 0) = (a == v) := by
  rw [beq_eq_beq]
  exact sub_eq_zero

/-- The flags of a subtraction without a borrow-in say how A and the operand compare (R130). -/
theorem report_sub8_compares (n : Nat) (v : Byte) (s : State) (ts : List Transaction) :
    Compares s (report n { s with bus := ts, f := (sub8 s.a v false s.f).2 }) v n := by
  obtain ⟨difference, flags⟩ := sub8_spec s.a v false s.f
  have borrowless : (sub8 s.a v false s.f).1 = s.a - v := difference.trans (BitVec.sub_zero _)
  rw [borrowless, byte_sub_beq_zero] at flags
  exact ⟨rfl, flags⟩

/-! #### The 8-bit instructions (R122 to R133) -/

/-- Settles O37: each is `add8` on A and its operand, and reading the operand changes no state. -/
theorem additionsSetAllFlags : Obligations.AdditionsSetAllFlags :=
  ⟨fun src d8 s => ⟨⟨_, rfl, report_add8_operand_adds src false s⟩, ⟨_, rfl, report_add8_adds 7 d8 false s s.bus⟩,
      ⟨_, rfl, report_add8_operand_adds src (flag .cy s.f) s⟩,
      ⟨_, rfl, report_add8_adds 7 d8 (flag .cy s.f) s s.bus⟩⟩,
    fun src d8 rest => ⟨decodeEncodeRoundTrip (.add src) rest rfl, decodeEncodeRoundTrip (.adi d8) rest rfl,
      decodeEncodeRoundTrip (.adc src) rest rfl, decodeEncodeRoundTrip (.aci d8) rest rfl⟩⟩

/-- Settles O38: each is `sub8` on A and its operand, and reading the operand changes no state. -/
theorem subtractionsSetAllFlags : Obligations.SubtractionsSetAllFlags :=
  ⟨fun src d8 s => ⟨⟨_, rfl, report_sub8_operand_subtracts src false s⟩,
      ⟨_, rfl, report_sub8_subtracts 7 d8 false s s.bus⟩,
      ⟨_, rfl, report_sub8_operand_subtracts src (flag .cy s.f) s⟩,
      ⟨_, rfl, report_sub8_subtracts 7 d8 (flag .cy s.f) s s.bus⟩⟩,
    fun src d8 rest => ⟨decodeEncodeRoundTrip (.sub src) rest rfl, decodeEncodeRoundTrip (.sui d8) rest rfl,
      decodeEncodeRoundTrip (.sbb src) rest rfl, decodeEncodeRoundTrip (.sbi d8) rest rfl⟩⟩

/-- Settles O39: the difference is 0 exactly when A is the operand, and the borrow says that A is less. -/
theorem comparesLeaveAccumulator : Obligations.ComparesLeaveAccumulator := by
  refine ⟨fun src d8 s => ⟨⟨_, rfl, ?_⟩, ⟨_, rfl, report_sub8_compares 7 d8 s s.bus⟩⟩,
    fun src d8 rest => ⟨decodeEncodeRoundTrip (.cmp src) rest rfl, decodeEncodeRoundTrip (.cpi d8) rest rfl⟩⟩
  rw [readOperand_eq, countFor_eq]
  exact report_sub8_compares ..

/-- Settles O40: an operand is read, F is written, and the operand is written with the result; neither function of the
flags writes CY. -/
theorem incrementDecrementKeepCarry : Obligations.IncrementDecrementKeepCarry := by
  refine ⟨fun dst s => ⟨⟨_, _, rfl, ?_, (inc8_spec _ s.f).2⟩, ⟨_, _, rfl, ?_, (dec8_spec _ s.f).2⟩⟩,
    fun dst rest => ⟨decodeEncodeRoundTrip (.inr dst) rest rfl, decodeEncodeRoundTrip (.dcr dst) rest rfl⟩⟩
  all_goals
    rw [readOperand_eq, ← countFor_eq]
    exact report_writeOperand_writes ..

/-! #### The pair instructions (R134 to R136) -/

/-- Settles O41: each is a write of the pair alone; one less is 65535 more, modulo 65536. -/
theorem pairIncrementWritesNoFlag : Obligations.PairIncrementWritesNoFlag := by
  refine ⟨fun p s => ⟨⟨_, _, rfl, report_writeRp_writes 5 p _ s, BitVec.toNat_add ..⟩,
      ⟨_, _, rfl, report_writeRp_writes 5 p _ s, ?_⟩⟩,
    fun p rest => ⟨decodeEncodeRoundTrip (.inx p) rest rfl, decodeEncodeRoundTrip (.dcx p) rest rfl⟩⟩
  rw [BitVec.toNat_sub, Nat.add_comm]
  rfl

/-- Settles O42: HL is the pair adder's sum and F its carry, which is written at CY alone. -/
theorem dadWritesCarryAlone : Obligations.DadWritesCarryAlone := by
  refine ⟨fun p s => ⟨_, rfl, rfl, ?_, ?_, ?_⟩, fun p rest => decodeEncodeRoundTrip (.dad p) rest rfl⟩
  · exact (joinBytes_hiByte_loByte _).trans (congrArg Prod.fst (add16_spec ..))
  · simp [add16_spec]
  · exact setFlag_cy_others ..

/-! #### Decimal adjust (R137) -/

/-- The high part of the uncut value exceeds 9 exactly when A exceeded 0x99: from 0x9A to 0x9F the low nibble calls for
the low correction, which carries, and at 0x99 or below that correction does not reach 0xA0. -/
theorem high_part_after_low_correction_iff {a : Nat} {low : Bool} (needed : 9 < a % 16 → low = true) :
    9 < (a + if low then 6 else 0) / 16 ↔ 0x99 < a := by
  cases low with
  | true =>
    simp only [if_true]
    omega
  | false =>
    have : ¬9 < a % 16 := fun digit => Bool.false_ne_true (needed digit)
    simp only [Bool.false_eq_true, if_false]
    omega

/-- Settles O43: the two conditions are those of `decimalAdjust_spec`, the high one also stated on A itself, and CY is
the high one, which a set CY makes true. -/
theorem daaCorrectsInTwoSteps : Obligations.DaaCorrectsInTwoSteps := by
  refine ⟨fun s => ?_, fun rest => decodeEncodeRoundTrip .daa rest rfl⟩
  obtain ⟨low, high, lowEq, highEq, value, flags⟩ := decimalAdjust_spec s.a s.f
  have lowIff : low = true ↔ 9 < s.a.toNat % 16 ∨ flag .ac s.f = true := by simp [lowEq]
  have highIff : high = true ↔ 9 < (s.a.toNat + if low then 6 else 0) / 16 ∨ flag .cy s.f = true := by simp [highEq]
  have onA := high_part_after_low_correction_iff fun digit => lowIff.2 (.inl digit)
  have adjusted := report_setAccFlags_aluResult flags 4 s.bus
  obtain ⟨-, -, -, -, carry, -⟩ := flags
  exact ⟨_, low, high, rfl, lowIff, highIff, by rwa [onA] at highIff, value, adjusted,
    fun set => carry.trans (highIff.2 (.inr set))⟩

/-! #### Addition of packed decimal digits: `c` is the carry-in (R124, R137) -/

/-- The low nibble of the binary sum exceeds 9, or AC is set, exactly when the sum of the low digits exceeds 9. -/
theorem low_correction_iff {x y c : Nat} (hx : x % 16 ≤ 9) (hy : y % 16 ≤ 9) (hc : c ≤ 1) :
    9 < (x + y + c) % 256 % 16 ∨ 16 ≤ x % 16 + y % 16 + c ↔ 9 < x % 16 + y % 16 + c := by
  omega

/-- The byte kept of the binary sum exceeds 0x99, or CY is set, exactly when the sum itself exceeds 0x99. -/
theorem high_correction_iff (sum : Nat) : 0x99 < sum % 256 ∨ 256 ≤ sum ↔ 0x99 < sum := by
  omega

/-- Six for each digit position that carries turns the binary sum into the decimal sum, the hundred left out. -/
theorem corrected_sum_bcd {x y r : Byte} {c : Nat} {low high : Bool} (hx : IsBcd x) (hy : IsBcd y) (hc : c ≤ 1)
    (lowIff : low = true ↔ 9 < x.toNat % 16 + y.toNat % 16 + c) (highIff : high = true ↔ 0x99 < x.toNat + y.toNat + c)
    (value : r.toNat = (x.toNat + y.toNat + c + (if low then 0x06 else 0) + if high then 0x60 else 0) % 256) :
    IsBcd r ∧ bcdValue r + (if high then 100 else 0) = bcdValue x + bcdValue y + c := by
  obtain ⟨hx1, hx0⟩ := hx
  obtain ⟨hy1, hy0⟩ := hy
  unfold IsBcd bcdValue
  cases low <;> cases high
  all_goals
    simp only [Bool.false_eq_true, false_iff, true_iff, if_true, if_false] at lowIff highIff value ⊢
    omega

/-- Settles O44: after ADC, DAA's conditions hold exactly when the low digits, and the two numbers, carry. -/
theorem adcThenDaaAddsDecimalDigits : Obligations.AdcThenDaaAddsDecimalDigits := by
  intro src s ha hv
  obtain ⟨-, -, ⟨t, ran, frame, -, -, aux, -, carry, -⟩, -⟩ := additionsSetAllFlags.1 src 0 s
  obtain ⟨u, low, high, adjusted, lowIff, -, highIff, value, ⟨-, -, -, -, -, carryOut, -⟩, -⟩ :=
    daaCorrectsInTwoSteps.1 t
  have hc : (flag .cy s.f).toNat ≤ 1 := Bool.toNat_le _
  have sum : t.a.toNat = (s.a.toNat + (readR8 src s).toNat + (flag .cy s.f).toNat) % 256 := by
    simp [congrArg State.a frame]
  rw [aux, decide_eq_true_iff, sum, low_correction_iff ha.2 hv.2 hc] at lowIff
  rw [carry, decide_eq_true_iff, sum, high_correction_iff] at highIff
  refine ⟨t, u, ran, adjusted, ?_⟩
  rw [carryOut]
  refine corrected_sum_bcd ha hv hc lowIff highIff ?_
  rw [value, sum]
  omega

end Sys2Proof.Machine

/-! ### Logic, rotates, complement and carry (spec/42_logical.md) -/

namespace Sys2Proof.Machine

/-! #### What a logical function reported as the instruction's result leaves -/

/-- AC after a logical function: for AND alone bit 3 of either operand (R150). -/
def logicAux : LogicOp → Byte → Byte → Bool
  | .and, a, v => a.getLsbD 3 || v.getLsbD 3
  | .xor, _, _ => false
  | .or, _, _ => false

theorem logic8_flagsAre (op : LogicOp) (a v f : Byte) :
    FlagsAre f (logic8 op a v f).2 ((logic8 op a v f).1.getLsbD 7) ((logic8 op a v f).1 == 0) (logicAux op a v)
      (parity (logic8 op a v f).1) false := by
  cases op with
  | and => exact logic8_spec .and a v f
  | xor => exact logic8_spec .xor a v f
  | or => exact logic8_spec .or a v f

theorem report_logic8_aluResult (op : LogicOp) (n : Nat) (v : Byte) (s : State) (ts : List Transaction) :
    AluResult s (report n (setAccFlags (logic8 op s.a v s.f) { s with bus := ts })) (logic8 op s.a v s.f).1
      (logicAux op s.a v) false n :=
  report_setAccFlags_aluResult (logic8_flagsAre op s.a v s.f) n ts

theorem report_logic8_operand_aluResult (op : LogicOp) (src : R8) (s : State) :
    AluResult s
      (report (countFor 4 7 src) (setAccFlags (logic8 op s.a (readOperand src s).1 s.f) (readOperand src s).2))
      (logic8 op s.a (readR8 src s) s.f).1 (logicAux op s.a (readR8 src s)) false (if src = .m then 7 else 4) := by
  rw [readOperand_eq, countFor_eq]
  exact report_logic8_aluResult ..

/-- Settles O45: each is `logic8` on A and its operand, and reading the operand changes no state. -/
theorem logicClearsCarry : Obligations.LogicClearsCarry :=
  ⟨fun src d8 s =>
      ⟨⟨_, rfl, report_logic8_operand_aluResult .and src s⟩, ⟨_, rfl, report_logic8_aluResult .and 7 d8 s s.bus⟩,
        ⟨_, rfl, report_logic8_operand_aluResult .xor src s⟩, ⟨_, rfl, report_logic8_aluResult .xor 7 d8 s s.bus⟩,
        ⟨_, rfl, report_logic8_operand_aluResult .or src s⟩, ⟨_, rfl, report_logic8_aluResult .or 7 d8 s s.bus⟩⟩,
    fun src d8 rest =>
      ⟨decodeEncodeRoundTrip (.ana src) rest rfl, decodeEncodeRoundTrip (.ani d8) rest rfl,
        decodeEncodeRoundTrip (.xra src) rest rfl, decodeEncodeRoundTrip (.xri d8) rest rfl,
        decodeEncodeRoundTrip (.ora src) rest rfl, decodeEncodeRoundTrip (.ori d8) rest rfl⟩⟩

/-! #### Rotates (R157 to R160) -/

/-- The write of CY that is all a rotate, CMC and STC make of F (R26, D16). -/
theorem setFlag_cy_writes (v : Bool) (f : Byte) :
    flag .cy (setFlag .cy v f) = v ∧ setFlag .cy v f &&& 0xFE = f &&& 0xFE :=
  ⟨flag_setFlag .cy .cy v f, setFlag_cy_others v f⟩

theorem rotateLeft_fst (a f : Byte) : (rotateLeft a f).1 = a.rotateLeft 1 := by
  revert a
  simp only [rotateLeft]
  decide

theorem rotateRight_fst (a f : Byte) : (rotateRight a f).1 = a.rotateRight 1 := by
  revert a
  simp only [rotateRight]
  decide

/-- The shift leaves bit 0 free for CY. -/
theorem rotateLeftThroughCarry_toNat (a f : Byte) :
    (rotateLeftThroughCarry a f).1.toNat = 2 * a.toNat % 256 + (flag .cy f).toNat := by
  simp only [rotateLeftThroughCarry]
  generalize flag .cy f = carry
  revert a carry
  decide

/-- The shift leaves bit 7 free for CY. -/
theorem rotateRightThroughCarry_toNat (a f : Byte) :
    (rotateRightThroughCarry a f).1.toNat = a.toNat / 2 + 128 * (flag .cy f).toNat := by
  simp only [rotateRightThroughCarry]
  generalize flag .cy f = carry
  revert a carry
  decide

/-- Settles O46: A is the rotate's value, and F a write of CY alone. -/
theorem rotatesMoveOneBit : Obligations.RotatesMoveOneBit :=
  ⟨fun s =>
      ⟨⟨_, rfl, rfl, rotateLeft_fst s.a s.f, setFlag_cy_writes ..⟩,
        ⟨_, rfl, rfl, rotateRight_fst s.a s.f, setFlag_cy_writes ..⟩,
        ⟨_, rfl, rfl, rotateLeftThroughCarry_toNat s.a s.f, setFlag_cy_writes ..⟩,
        ⟨_, rfl, rfl, rotateRightThroughCarry_toNat s.a s.f, setFlag_cy_writes ..⟩⟩,
    fun rest => ⟨decodeEncodeRoundTrip .rlc rest rfl, decodeEncodeRoundTrip .rrc rest rfl,
      decodeEncodeRoundTrip .ral rest rfl, decodeEncodeRoundTrip .rar rest rfl⟩⟩

/-! #### RAL and RAR undo each other: A and CY are nine bits that go round -/

theorem toNat_getLsbD (a : Byte) (i : Nat) : (a.getLsbD i).toNat = a.toNat / 2 ^ i % 2 :=
  Nat.toNat_testBit a.toNat i

/-- RAL then RAR on numbers, `c` the CY before: A comes back, and so does CY. -/
theorem halve_after_double {a c : Nat} (ha : a < 256) (hc : c ≤ 1) :
    (2 * a % 256 + c) / 2 + 128 * (a / 2 ^ 7 % 2) = a ∧ (2 * a % 256 + c) / 2 ^ 0 % 2 = c := by
  have kept : 2 * a % 256 = 2 * (a % 128) := Nat.mul_mod_mul_left 2 a 128
  omega

/-- RAR then RAL on numbers, `c` the CY before. -/
theorem double_after_halve {a c : Nat} (ha : a < 256) (hc : c ≤ 1) :
    2 * (a / 2 + 128 * c) % 256 + a / 2 ^ 0 % 2 = a ∧ (a / 2 + 128 * c) / 2 ^ 7 % 2 = c := by
  omega

theorem carry_or_others (f : Byte) : bitAt 0 (flag .cy f) ||| f &&& 0xFE = f := by
  revert f
  decide

/-- CY and the seven other bits are all of F. -/
theorem byte_eq_of_carry_eq {f g : Byte} (carry : (flag .cy f).toNat = (flag .cy g).toNat)
    (others : f &&& 0xFE = g &&& 0xFE) : f = g := by
  have carryBit : flag .cy f = flag .cy g := Function.LeftInverse.injective Bool.ofNat_toNat carry
  rw [← carry_or_others f, carryBit, others, carry_or_others]

/-- Two rotates that put back A and CY put back the state. -/
theorem restored_of_frames {s t u : State} (first : t = { s with a := t.a, f := t.f, cycles := 4 })
    (second : u = { t with a := u.a, f := u.f, cycles := 4 }) (acc : u.a.toNat = s.a.toNat)
    (carry : (flag .cy u.f).toNat = (flag .cy s.f).toNat) (others : u.f &&& 0xFE = s.f &&& 0xFE) :
    u = { s with cycles := 4 } := by
  rw [second, BitVec.eq_of_toNat_eq acc, byte_eq_of_carry_eq carry others, first]

/-- Settles O47: the second rotate puts back at one end the bit the first moved to CY, and takes back to CY the bit the
first moved in at the other; the two values are those of O46. -/
theorem rotatesThroughCarryUndo : Obligations.RotatesThroughCarryUndo := by
  intro s
  have carryIn : (flag .cy s.f).toNat ≤ 1 := Bool.toNat_le _
  constructor
  · obtain ⟨-, -, ⟨t, ran, frame, accT, carryT, othersT⟩, -⟩ := rotatesMoveOneBit.1 s
    obtain ⟨-, -, -, u, ran', frame', accU, carryU, othersU⟩ := rotatesMoveOneBit.1 t
    obtain ⟨acc, carry⟩ := halve_after_double s.a.isLt carryIn
    refine ⟨t, u, ran, ran', restored_of_frames frame frame' ?_ ?_ (othersU.trans othersT)⟩
    · rw [accU, carryT, accT, toNat_getLsbD, acc]
    · rw [carryU, toNat_getLsbD, accT, carry]
  · obtain ⟨-, -, -, t, ran, frame, accT, carryT, othersT⟩ := rotatesMoveOneBit.1 s
    obtain ⟨-, -, ⟨u, ran', frame', accU, carryU, othersU⟩, -⟩ := rotatesMoveOneBit.1 t
    obtain ⟨acc, carry⟩ := double_after_halve s.a.isLt carryIn
    refine ⟨t, u, ran, ran', restored_of_frames frame frame' ?_ ?_ (othersU.trans othersT)⟩
    · rw [accU, carryT, accT, toNat_getLsbD, acc]
    · rw [carryU, toNat_getLsbD, accT, carry]

/-! #### Complement and carry (R161 to R163) -/

theorem complement_toNat (a : Byte) : (a ^^^ 0xFF).toNat = 255 - a.toNat :=
  (congrArg BitVec.toNat (BitVec.xor_allOnes (x := a))).trans (BitVec.toNat_not (x := a))

/-- Settles O48: CMA writes A alone, CMC and STC are a write of CY alone. -/
theorem complementAndCarryOps : Obligations.ComplementAndCarryOps :=
  ⟨fun s => ⟨⟨_, rfl, rfl, complement_toNat s.a⟩, ⟨_, rfl, rfl, setFlag_cy_writes ..⟩,
      ⟨_, rfl, rfl, setFlag_cy_writes ..⟩⟩,
    fun rest => ⟨decodeEncodeRoundTrip .cma rest rfl, decodeEncodeRoundTrip .cmc rest rfl,
      decodeEncodeRoundTrip .stc rest rfl⟩⟩

end Sys2Proof.Machine

/-! ### Control flow: PC, the return address on the stack, and the flip-flops (spec/43_control_flow.md) -/

namespace Sys2Proof.Machine

/-! #### The conditional instructions by condition code: one meaning and one opcode pattern for eight (R183 to R210) -/

theorem exec_jumpInstr (k : Cond) (target : Word) (s : State) :
    exec (jumpInstr k target) s = .next (jumpIf k target s) := by
  cases k <;> rfl

theorem exec_callInstr (k : Cond) (target : Word) (s : State) :
    exec (callInstr k target) s = .next (callIf k target s) := by
  cases k <;> rfl

theorem exec_returnInstr (k : Cond) (s : State) : exec (returnInstr k) s = .next (returnIf k s) := by
  cases k <;> rfl

theorem decode_jumpInstr (k : Cond) (lo hi : Byte) (rest : List Byte) :
    decode (opcodeOf 3 k.code 2 :: lo :: hi :: rest) = .ok (jumpInstr k (joinBytes hi lo)) rest :=
  decode_of_length_three (by cases k <;> rfl) (by cases k <;> rfl) rest

theorem decode_callInstr (k : Cond) (lo hi : Byte) (rest : List Byte) :
    decode (opcodeOf 3 k.code 4 :: lo :: hi :: rest) = .ok (callInstr k (joinBytes hi lo)) rest :=
  decode_of_length_three (by cases k <;> rfl) (by cases k <;> rfl) rest

theorem decode_returnInstr (k : Cond) (rest : List Byte) :
    decode (opcodeOf 3 k.code 0 :: rest) = .ok (returnInstr k) rest :=
  decode_encodeOp1 (by cases k <;> rfl) (by cases k <;> rfl) rest

/-! #### What a reported call and a reported return change, their transactions left open (R180) -/

theorem report_callTo_storesWord (n : Nat) (target : Word) (s : State) :
    StoresWord { s with sp := s.sp - 2, pc := target, cycles := n, bus := (report n (callTo target s)).bus }
      (report n (callTo target s)) (s.sp - 2) s.pc := by
  have bus : (report n (callTo target s)).bus = s.bus ++ wordWrites (s.sp - 2) s.pc := push16_bus s.pc s
  rw [bus]
  exact callTo_storesWord target (report n s)

theorem report_returnFrom (n : Nat) (s : State) :
    report n (returnFrom s) =
      { s with
        pc := joinBytes (memRead s (s.sp + 1)) (memRead s s.sp)
        sp := s.sp + 2
        cycles := n
        bus := (report n (returnFrom s)).bus } := by
  rw [returnFrom_eq]
  rfl

/-! #### The instructions (R181 to R217) -/

/-- Settles O49: a jump writes PC and the count, and the eight conditional jumps are one `jumpIf`. -/
theorem jumpsSetPcWhenConditionHolds : Obligations.JumpsSetPcWhenConditionHolds := by
  refine ⟨fun k target s => ⟨rfl, ?_⟩, fun k lo hi rest => ⟨decode_of_length_three rfl rfl rest,
    decode_of_length_three rfl rfl rest, decode_jumpInstr k lo hi rest⟩⟩
  rw [exec_jumpInstr, jumpIf_eq]

theorem exec_call (target : Word) (s : State) : ∃ t, exec (.call target) s = .next t ∧
    StoresWord { s with sp := s.sp - 2, pc := target, cycles := 17, bus := t.bus } t (s.sp - 2) s.pc :=
  ⟨_, rfl, report_callTo_storesWord 17 target s⟩

/-- Settles O50: a call stores the return address below SP, and a conditional call is that call or a mere count. -/
theorem callsPushReturnAddress : Obligations.CallsPushReturnAddress := by
  refine ⟨fun k target s => ⟨exec_call target s, _, exec_callInstr k target s, ?_⟩,
    fun k lo hi rest => ⟨fun op call => ?_, decode_callInstr k lo hi rest⟩⟩
  · unfold callIf
    split
    · exact report_callTo_storesWord 17 target s
    · rfl
  · obtain ⟨-, -, aliases⟩ := (aliasOpcodesDecodeAsCanonical rest).2 lo hi
    rcases List.mem_cons.1 call with rfl | isAlias
    · exact decode_of_length_three rfl rfl rest
    · exact (aliases op isAlias).1

theorem exec_ret (s : State) : ∃ t, exec .ret s = .next t ∧ t =
    { s with
      pc := joinBytes (memRead s (s.sp + 1)) (memRead s s.sp), sp := s.sp + 2, cycles := 10, bus := t.bus } :=
  ⟨_, rfl, report_returnFrom 10 s⟩

/-- Settles O51: a return pops PC, and a conditional return is that return or a mere count. -/
theorem returnsPopPc : Obligations.ReturnsPopPc := by
  refine ⟨fun k s => ⟨exec_ret s, _, exec_returnInstr k s, ?_⟩,
    fun k rest => ⟨decodeEncodeRoundTrip .ret rest rfl, rfl, decode_returnInstr k rest⟩⟩
  unfold returnIf
  split
  · exact report_returnFrom 11 s
  · rfl

/-- Settles O52: the callee's SP is where the call stored the return address, and the two that the return adds to SP are
the two that the call took from it. -/
theorem returnUndoesCall : Obligations.ReturnUndoesCall := by
  intro s target
  obtain ⟨t, called, stored⟩ := exec_call target s
  obtain ⟨u, returned, popped⟩ := exec_ret t
  have frame := stored.1
  have callee_pc : t.pc = target := by rw [frame]
  have callee_sp : t.sp = s.sp - 2 := by rw [frame]
  have back : joinBytes (memRead t (s.sp - 2 + 1)) (memRead t (s.sp - 2)) = s.pc := busReadWord_of_storesWord stored
  refine ⟨t, u, called, callee_pc, returned, ?_⟩
  rw [popped, callee_sp, back, BitVec.sub_add_cancel, frame]

theorem rstTarget_eq (n : BitVec 3) : rstTarget n = BitVec.ofNat 16 (8 * n.toNat) := by
  revert n
  decide

/-- Settles O53: RST is a call of a low address. -/
theorem rstCallsLowAddress : Obligations.RstCallsLowAddress :=
  ⟨fun n s => ⟨_, rfl, rstTarget_eq n ▸ report_callTo_storesWord 11 (rstTarget n) s⟩,
    fun n rest => decodeEncodeRoundTrip (.rst n) rest rfl⟩

/-- Settles O7: the idle step reports its count and has presented nothing. -/
theorem idleStepChangesNothing : Obligations.IdleStepChangesNothing := fun _ idle => step_idle idle

/-- Settles O54: each of the five writes one field and the count, NOP the count alone. -/
theorem haltEnableNopPchl : Obligations.HaltEnableNopPchl := by
  refine ⟨fun s => ⟨rfl, rfl, rfl, rfl, rfl⟩, fun rest => ⟨decodeEncodeRoundTrip .pchl rest rfl,
    decodeEncodeRoundTrip .hlt rest rfl, decodeEncodeRoundTrip .ei rest rfl, decodeEncodeRoundTrip .di rest rfl,
    fun op nop => ?_⟩⟩
  rcases List.mem_cons.1 nop with rfl | isAlias
  · exact decodeEncodeRoundTrip .nop rest rfl
  · exact ((aliasOpcodesDecodeAsCanonical rest).1 op isAlias).1

end Sys2Proof.Machine

/-! ### Stack: a word moves between a register pair and the top of the stack (spec/44_stack.md) -/

namespace Sys2Proof.Machine

/-! #### What a reported push and a reported pop change, their transactions left open (R54) -/

theorem report_push16_storesWord (n : Nat) (w : Word) (s : State) :
    StoresWord { s with sp := s.sp - 2, cycles := n, bus := (report n (push16 w s)).bus }
      (report n (push16 w s)) (s.sp - 2) w :=
  report_busWriteWord_storesWord n (s.sp - 2) w { s with sp := s.sp - 2 }

/-- The write of a pair touches neither SP nor the transactions, so it and the pop's move of SP are independent. -/
theorem report_writeStackPair_pop16 (n : Nat) (p : StackPair) (s : State) :
    report n (writeStackPair p (pop16 s).1 (pop16 s).2) =
      { writeStackPair p (joinBytes (memRead s (s.sp + 1)) (memRead s s.sp)) s with
        sp := s.sp + 2
        cycles := n
        bus := (report n (writeStackPair p (pop16 s).1 (pop16 s).2)).bus } := by
  rw [pop16_eq]
  cases p <;> rfl

/-! #### A pair written with what it holds -/

/-- The mask of a wholesale load keeps a byte that has the fixed bits (R27). -/
theorem loadFlags_of_fixedBits {f : Byte} (fixed : FixedBits f) : loadFlags f = f := by
  revert f
  decide

/-- Writing a pair with what it holds changes nothing. The write of PSW forces the fixed bits of F, so F must have
them already (R30). -/
theorem writeStackPair_readStackPair (p : StackPair) {s : State} (fixed : FixedBits s.f) :
    writeStackPair p (readStackPair p s) s = s := by
  cases p with
  | bc => simp [writeStackPair, readStackPair, setBc, bc]
  | de => simp [writeStackPair, readStackPair, setDe, de]
  | hl => simp [writeStackPair, readStackPair, setHl, hl]
  | psw => simp [writeStackPair, readStackPair, setPsw, psw, loadFlags_of_fixedBits fixed]

/-! #### The instructions (R221 to R225) -/

theorem exec_push (p : StackPair) (s : State) : ∃ t, exec (.push p) s = .next t ∧
    StoresWord { s with sp := s.sp - 2, cycles := 11, bus := t.bus } t (s.sp - 2) (readStackPair p s) :=
  ⟨_, rfl, report_push16_storesWord 11 (readStackPair p s) s⟩

theorem exec_pop (p : StackPair) (s : State) : ∃ t, exec (.pop p) s = .next t ∧ t =
    { writeStackPair p (joinBytes (memRead s (s.sp + 1)) (memRead s s.sp)) s with
      sp := s.sp + 2, cycles := 10, bus := t.bus } :=
  ⟨_, rfl, report_writeStackPair_pop16 10 p s⟩

/-- Settles O55: PUSH is a word write below SP, POP the write of a pair with the word at SP, whose high byte goes to the
first-named register. -/
theorem pushAndPopPairs : Obligations.PushAndPopPairs := by
  refine ⟨fun p s => ⟨exec_push p s, ?_, ?_, ?_, ?_⟩, fun p rest =>
    ⟨decodeEncodeRoundTrip (.push p) rest rfl, decodeEncodeRoundTrip (.pop p) rest rfl⟩⟩
  · simpa [writeStackPair, setBc] using exec_pop .bc s
  · simpa [writeStackPair, setDe] using exec_pop .de s
  · simpa [writeStackPair, setHl] using exec_pop .hl s
  · simpa [writeStackPair, setPsw, loadFlags] using exec_pop .psw s

/-- The write of HL and the write of memory are independent, so XTHL is a word write in the state whose HL is the word
read (R223). -/
theorem exec_xthl (s : State) : ∃ t, exec .xthl s = .next t ∧
    StoresWord { s with l := memRead s s.sp, h := memRead s (s.sp + 1), cycles := 18, bus := t.bus } t s.sp (hl s) := by
  refine ⟨report 18 (busWriteWord s.sp (hl s) (setHl (busReadWord s.sp s).1 (busReadWord s.sp s).2)), rfl, ?_⟩
  simpa [busReadWord_eq, setHl] using
    report_busWriteWord_storesWord 18 s.sp (hl s) (setHl (busReadWord s.sp s).1 (busReadWord s.sp s).2)

/-- Settles O56: XTHL is a word read and a word write at an SP that stays, SPHL a write of SP alone. -/
theorem xthlAndSphl : Obligations.XthlAndSphl :=
  ⟨fun s => ⟨exec_xthl s, rfl⟩,
    fun rest => ⟨decodeEncodeRoundTrip .xthl rest rfl, decodeEncodeRoundTrip .sphl rest rfl⟩⟩

/-- Settles O57: the word that POP reads is the one PUSH stored, which the pair still holds, and the two that POP adds
to SP are the two that PUSH took from it. -/
theorem popAfterPushRestores : Obligations.PopAfterPushRestores := by
  intro p s fixed
  obtain ⟨t, pushed, stored⟩ := exec_push p s
  obtain ⟨u, popped, loaded⟩ := exec_pop p t
  have word : joinBytes (memRead t (s.sp - 2 + 1)) (memRead t (s.sp - 2)) = readStackPair p s :=
    busReadWord_of_storesWord stored
  obtain ⟨frame, bytes⟩ := stored
  have lowered : t.sp = s.sp - 2 := by rw [frame]
  have flags : t.f = s.f := by rw [frame]
  have pair : readStackPair p t = readStackPair p s := by rw [frame]; cases p <;> rfl
  have kept : writeStackPair p (readStackPair p s) t = t := pair ▸ writeStackPair_readStackPair p (flags ▸ fixed)
  have second : s.sp - 1 = s.sp - 2 + 1 := by bv_omega
  refine ⟨t, u, pushed, popped, ?_, ?_, ?_⟩
  · rw [loaded, lowered, word, kept, BitVec.sub_add_cancel, frame]
  · rw [bytes, if_pos rfl]
  · rw [second, bytes, if_neg (word_add_one_ne _), if_pos rfl]

end Sys2Proof.Machine

/-! ### Ports: the multiplexer in each configuration, and the two instructions that use it (spec/45_port_io.md) -/

namespace Sys2Proof.Machine

/-! #### The multiplexer as one state: a port access writes the two records or nothing (R230, R231) -/

theorem portReadWith_eq (isPresent : Bool) (answer p : Byte) (s : State) :
    portReadWith isPresent answer p s =
      (if isPresent then answer else 0xFF,
        { s with
          portLog := if isPresent then s.portLog ++ [.read p answer] else s.portLog
          bus := if isPresent then s.bus ++ [.port (.read p answer)] else s.bus }) := by
  cases isPresent <;> rfl

theorem portWriteWith_eq (isPresent : Bool) (p v : Byte) (s : State) :
    portWriteWith isPresent p v s =
      { s with
        portLog := if isPresent then s.portLog ++ [.write p v] else s.portLog
        bus := if isPresent then s.bus ++ [.port (.write p v)] else s.bus } := by
  cases isPresent <;> rfl

/-- Settles O58: the multiplexer at each presence, and the core's two operations, which are it at the configuration's
presence and the oracle's answer. -/
theorem portMultiplexerDefaults : Obligations.PortMultiplexerDefaults :=
  fun answer p v s => ⟨portReadWith_eq false answer p s, portReadWith_eq true answer p s,
    portWriteWith_eq false p v s, portWriteWith_eq true p v s, rfl, rfl⟩

/-! #### The instructions (R232, R233) -/

theorem exec_inPort (p : Byte) (s : State) :
    exec (.inPort p) s = .next (report 10 (setA (portRead p s))) := rfl

theorem exec_outPort (p : Byte) (s : State) :
    exec (.outPort p) s = .next (report 10 (portWrite p s.a s)) := rfl

/-- Settles O59: IN writes A and the count over what the multiplexer's read leaves, OUT the count over what its write
leaves, and neither reaches another field. -/
theorem inAndOutUsePorts : Obligations.InAndOutUsePorts := by
  refine ⟨fun p s => ⟨?_, ?_⟩, fun p rest =>
    ⟨decodeEncodeRoundTrip (.inPort p) rest rfl, decodeEncodeRoundTrip (.outPort p) rest rfl⟩⟩
  · rw [exec_inPort, portRead, portReadWith_eq]
    rfl
  · rw [exec_outPort, portWrite, portWriteWith_eq]
    rfl

end Sys2Proof.Machine

/-! ### Reset, and the reported cycle count (spec/70_reset_and_hazards.md) -/

namespace Sys2Proof.Machine

/-- Settles O17: the reset state's PC is 0x0000 and its memory the old one, so its next step runs what the three bytes
there decode to. -/
theorem hostResetKeepsMemory : Obligations.HostResetKeepsMemory := by
  intro s
  refine ⟨rfl, fun i rest decoded => ?_⟩
  have fetched := stepRunsDecodedInstruction (hostReset s) i rest rfl decoded
  have past : (hostReset s).pc + BitVec.ofNat 16 i.length = BitVec.ofNat 16 i.length := BitVec.zero_add _
  rwa [past] at fetched

/-! #### Nothing reads the count (R266) -/

theorem jumpIf_of_report (k : Cond) (target : Word) (n : Nat) (s : State) :
    jumpIf k target (report n s) = jumpIf k target s := by
  rw [jumpIf_eq, jumpIf_eq]
  rfl

theorem report_setA_portRead_of_report (m : Nat) (p : Byte) (n : Nat) (s : State) :
    report m (setA (portRead p (report n s))) = report m (setA (portRead p s)) := by
  rw [portRead_eq, portRead_eq]
  split <;> rfl

theorem report_portWrite_of_report (m : Nat) (p v : Byte) (n : Nat) (s : State) :
    report m (portWrite p v (report n s)) = report m (portWrite p v s) := by
  rw [portWrite_eq, portWrite_eq]
  split <;> rfl

/-- Every instruction carries the count it finds along until its own report replaces it. -/
theorem exec_of_report (i : Instr) (n : Nat) (s : State) : exec i (report n s) = exec i s := by
  cases i with
  | add op | adc op | sub op | sbb op | ana op | xra op | ora op | cmp op | mvi op _ | inr op | dcr op | lxi op _
  | inx op | dcx op | dad op | push op | pop op | ldax op | stax op => cases op <;> rfl
  | mov dst src => cases dst <;> cases src <;> rfl
  | jnz _ | jz _ | jnc _ | jc _ | jpo _ | jpe _ | jp _ | jm _ => exact congrArg Host.Outcome.next (jumpIf_of_report ..)
  | inPort p => exact congrArg Host.Outcome.next (report_setA_portRead_of_report ..)
  | outPort p => exact congrArg Host.Outcome.next (report_portWrite_of_report ..)
  | _ => rfl

/-- Settles O12: the idle step and every instruction report a count of their own, and the fetch reads memory and PC
alone. -/
theorem nothingReadsCycleCount : Obligations.NothingReadsCycleCount := by
  intro s n
  rcases Bool.eq_false_or_eq_true s.halted with idle | running
  · exact (step_idle (s := report n s) idle).trans (step_idle idle).symm
  · rw [step_running running, ← exec_of_report _ n]
    exact step_running (s := report n s) running

/-! #### The counts (R265) -/

/-- A count of R265's table. -/
abbrev InCountTable (n : Nat) : Prop := n ∈ [4, 5, 7, 10, 11, 13, 16, 17, 18]

theorem countFor_inCountTable {reg mem : Nat} (hreg : InCountTable reg) (hmem : InCountTable mem) (r : R8) :
    InCountTable (countFor reg mem r) := by
  rw [countFor_eq]
  split
  · exact hmem
  · exact hreg

theorem movCount_inCountTable (dst src : R8) : InCountTable (movCount dst src) := by
  rw [movCount_eq]
  split <;> decide

theorem callIf_cycles (k : Cond) (target : Word) (s : State) :
    (callIf k target s).cycles = if cond k s then 17 else 11 :=
  apply_ite State.cycles ..

theorem returnIf_cycles (k : Cond) (s : State) : (returnIf k s).cycles = if cond k s then 11 else 5 :=
  apply_ite State.cycles ..

/-- A count depends on the operand for the instructions that may use M, and on the condition for conditional calls and
returns; every other instruction has one count. -/
theorem exec_cycles_inCountTable {i : Instr} {s t : State} (ran : exec i s = .next t) : InCountTable t.cycles := by
  cases i with
  | mov dst src =>
    cases ran
    exact movCount_inCountTable dst src
  | mvi op _ | add op | adc op | sub op | sbb op | ana op | xra op | ora op | cmp op | inr op | dcr op =>
    cases ran
    exact countFor_inCountTable (by decide) (by decide) op
  | cnz _ | cz _ | cnc _ | cc _ | cpo _ | cpe _ | cp _ | cm _ =>
    cases ran
    rw [callIf_cycles]
    split <;> decide
  | rnz | rz | rnc | rc | rpo | rpe | rp | rm =>
    cases ran
    rw [returnIf_cycles]
    split <;> decide
  | _ =>
    cases ran
    simp

/-- Settles O13: the idle step reports 4, and every instruction a count of the table. -/
theorem stepCountsAreInTable : Obligations.StepCountsAreInTable := by
  intro s
  obtain ⟨t, ran⟩ := step_eq_next s
  refine ⟨t, ran, ?_⟩
  rcases step_cases ran with ⟨-, rfl⟩ | ⟨-, arm⟩
  · exact List.mem_cons_self
  · exact exec_cycles_inCountTable arm

end Sys2Proof.Machine

/-! ### Creation (spec/10_state.md R37, spec/70_reset_and_hazards.md R261) -/

namespace Sys2Proof.Machine

/-- As created, memory lists no cell, so every address reads as an unlisted one does. -/
theorem memRead_reset (addr : Word) : memRead State.reset addr = 0x00 :=
  Memory.read_of_absent (m := State.reset.mem) fun _ listed => absurd listed List.not_mem_nil

/-- Settles O16: each register, flip-flop, count and record is the field of `State.reset` itself, and memory lists
nothing. -/
theorem creationValues : Obligations.CreationValues := by
  refine ⟨?pc, ?halted, ?inte, ?f, ?a, ?b, ?c, ?d, ?e, ?h, ?l, ?sp, ?memory, ?cycles, ?portLog, ?bus⟩
  case memory => exact memRead_reset
  all_goals rfl

end Sys2Proof.Machine
